-- ==== Sys2Proof/Word.lean ====
section
/-! DEFINITION. The word types of the Shredder engine (00_scope.md R7, R9). -/

namespace Sys2Proof

/-- A memory cell, an operand byte, a data value: BYTE_WIDTH = 8 bits (R7). -/
abbrev Byte := BitVec 8

/-- An 8-bit literal address: a cell of the low page, or an 8-bit jump target (R77). -/
abbrev Addr8 := BitVec 8

/-- A 16-bit address (ADDR_WIDTH), and a call-stack entry (STACK_ENTRY_WIDTH) (R7). -/
abbrev Addr16 := BitVec 16

/-- The program counter's register, PC_WIDTH = 32 bits (R7, R22); FPC has the same width (R29). -/
abbrev Pc := BitVec 32

end Sys2Proof
end

