-- ==== Sys2Proof/Config.lean ====
section
/-! DEFINITION. The parameters of 00_scope.md R7 and the fault kinds they range over (60_exceptions.md R230).
The machine has no free value (R121), so nothing here is opaque. -/

namespace Sys2Proof

/-- The nine kinds of fault the engine raises "and no others" (R230). They are architectural: raising one is a
transition of the machine (R240), not a stop of the model. -/
inductive FaultKind
  /-- pc at or above MEMORY_SIZE at the start of a step (R233). -/
  | ipOutOfBounds
  /-- The instruction runs past the last byte of memory (R235). -/
  | truncatedInstruction
  /-- RUN or RUN16 with 64 entries on the call stack (R237). -/
  | stackOverflow
  /-- The call-stack controller's own report; no step of the engine raises it (R238). -/
  | stackUnderflow
  /-- A decoded 16-bit address fails ValidAddr, or a return address does not fit an entry (R236). -/
  | invalidAddress
  /-- DIV with divisor byte 0 (R239). -/
  | divisionByZero
  /-- RET on an empty call stack (R241). -/
  | retWithEmptyStack
  /-- The opcode byte is above 0x1E (R234). -/
  | unknownOpcode
  /-- The watchdog (R232). -/
  | instructionLimitExceeded
  deriving DecidableEq, Repr

namespace Config

/-- MEMORY_SIZE: number of bytes of memory (R7). -/
abbrev memorySize : Nat := 65536

/-- STACK_CAPACITY: maximum number of call-stack entries (R7). -/
abbrev stackCapacity : Nat := 64

/-- INSTR_LIMIT: ceiling of the instruction counter, the one value the source calls configured (R7). -/
abbrev instrLimit : Nat := 1000000

/-- ADDR_LIMIT: exclusive upper bound of a valid decoded 16-bit address, default MEMORY_SIZE (R7, R106). -/
abbrev addrLimit : Nat := memorySize

/-- NUM_OPCODES: implemented opcodes, 0x00 to 0x1E (R7). -/
abbrev numOpcodes : Nat := 31

/-- SHIFT_MASK: mask applied to a shift amount (R7). -/
abbrev shiftMask : Byte := 7

/-- COMMENT_OVERRUN_FAULT: fault kind of a COMMENT whose payload runs past memory (R7, R133). -/
abbrev commentOverrunFault : FaultKind := .truncatedInstruction

end Config

end Sys2Proof
end

