-- ==== Sys2Proof/Machine/Alu.lean ====
section
/-! DEFINITION. The Arithmetic/Logic Unit's result functions: pure functions of bytes, computed exactly and reduced modulo
256 (42_logic_shift_compare.md R140; 44_arithmetic.md R180), and PUTN's decimal text (45_io.md R202). -/

namespace Sys2Proof.Machine

/-- not(x) = 255 - x (R140). -/
def aluNot (x : Byte) : Byte := ~~~x

/-- and(x, y) (R140). -/
def aluAnd (x y : Byte) : Byte := x &&& y

/-- or(x, y) (R140). -/
def aluOr (x y : Byte) : Byte := x ||| y

/-- xor(x, y) (R140). -/
def aluXor (x y : Byte) : Byte := x ^^^ y

/-- nand(x, y) = 255 - (x & y) (R140). -/
def aluNand (x y : Byte) : Byte := ~~~(x &&& y)

/-- eq(x, y): 1 if equal, else 0 (R140). -/
def aluEq (x y : Byte) : Byte := if x = y then 1 else 0

/-- The masked shift count n & 7 (R140, R147). -/
def shiftCount (n : Byte) : Nat := (n &&& Config.shiftMask).toNat

/-- shl(x, n) = (x * 2^(n & 7)) mod 256 (R140). -/
def aluShl (x n : Byte) : Byte := BitVec.ofNat 8 (x.toNat * 2 ^ shiftCount n)

/-- shr(x, n) = floor(x / 2^(n & 7)), a logical shift (R140; the spec's decision D14). -/
def aluShr (x n : Byte) : Byte := BitVec.ofNat 8 (x.toNat / 2 ^ shiftCount n)

/-- inc(x) = (x + 1) mod 256 (R180). -/
def aluInc (x : Byte) : Byte := BitVec.ofNat 8 (x.toNat + 1)

/-- dec(x) = x - 1 for x > 0 and 255 for x = 0 (R180). -/
def aluDec (x : Byte) : Byte := if x.toNat = 0 then 255 else BitVec.ofNat 8 (x.toNat - 1)

/-- add(x, y) = (x + y) mod 256 (R180). -/
def aluAdd (x y : Byte) : Byte := BitVec.ofNat 8 (x.toNat + y.toNat)

/-- sub(x, y) = x - y if x >= y and x - y + 256 if x < y (R180). -/
def aluSub (x y : Byte) : Byte := BitVec.ofNat 8 (if y.toNat ≤ x.toNat then x.toNat - y.toNat else x.toNat + 256 - y.toNat)

/-- mul(x, y) = (x * y) mod 256 (R180). -/
def aluMul (x y : Byte) : Byte := BitVec.ofNat 8 (x.toNat * y.toNat)

/-- div(x, y) = floor(x / y), consulted only for y > 0 (R180, R186). -/
def aluDiv (x y : Byte) : Byte := BitVec.ofNat 8 (x.toNat / y.toNat)

/-- The byte of a decimal digit, 0x30 + k (R202; general knowledge, 93_implementation_defined.md part 2). -/
def digitByte (k : Nat) : Byte := BitVec.ofNat 8 (0x30 + k)

/-- The bytes PUTN emits: one to three digits, most significant first, no leading zero (R202). -/
def decimalText (t : Byte) : List Byte :=
  (if t.toNat ≥ 100 then [digitByte (t.toNat / 100)] else []) ++
  (if t.toNat ≥ 10 then [digitByte (t.toNat / 10 % 10)] else []) ++
  [digitByte (t.toNat % 10)]

end Sys2Proof.Machine
end

