-- ==== Sys2Proof/Machine/Flags.lean ====
section
/-! DEFINITION. The flag bit that each of ADD, SUB and MUL writes to OF, on exact integers (44_arithmetic.md R180). -/

namespace Sys2Proof.Machine

/-- ADD: 1 if x + y > 255 (R183). -/
def addFlag (x y : Byte) : Bool := decide (x.toNat + y.toNat > 255)

/-- SUB: 1 if x < y, a borrow (R184). -/
def subFlag (x y : Byte) : Bool := decide (x.toNat < y.toNat)

/-- MUL: 1 if the full product is above 255 (R185; the spec's decision D27). -/
def mulFlag (x y : Byte) : Bool := decide (x.toNat * y.toNat > 255)

end Sys2Proof.Machine
end

