-- ==== Sys2Proof/Syntax.lean ====
section
/-! DEFINITION. The instructions: one constructor per row of spec/opcode_table.json (30_encoding.md R72, R74, R75, R78,
R79). Operands stand in the order of their bytes. The nine rows marked not_an_instruction are constructors too: fetching
one of their bytes as an opcode is a step, and it raises UnknownOpcode (R90, R91, R116). -/

namespace Sys2Proof

inductive Instr
  /-- R130 -/
  | nop
  /-- R131 -/
  | poke (a : Addr8) (v : Byte)
  /-- R132: source, destination -/
  | move (src dst : Addr8)
  /-- R141 -/
  | not (a : Addr8)
  /-- R142: sources a and b, destination d, as in every three-address form -/
  | nand (a b d : Addr8)
  /-- R160 -/
  | jmp (a : Addr8)
  /-- R161: target a, condition cell c -/
  | jz (a c : Addr8)
  /-- R162 -/
  | run (a : Addr8)
  /-- R163 -/
  | halt
  /-- R143 -/
  | and (a b d : Addr8)
  /-- R144 -/
  | or (a b d : Addr8)
  /-- R145 -/
  | xor (a b d : Addr8)
  /-- R181 -/
  | inc (a : Addr8)
  /-- R182 -/
  | dec (a : Addr8)
  /-- R146 -/
  | cmp (a b d : Addr8)
  /-- R133: the payload is no operand; only its length is (R81) -/
  | comment (len : Byte)
  /-- R201 -/
  | putc (a : Addr8)
  /-- R202 -/
  | putn (a : Addr8)
  /-- R203 -/
  | getc (a : Addr8)
  /-- R164 -/
  | ret
  /-- R183 -/
  | add (a b d : Addr8)
  /-- R184 -/
  | sub (a b d : Addr8)
  /-- R185 -/
  | mul (a b d : Addr8)
  /-- R186 -/
  | div (a b d : Addr8)
  /-- R147 -/
  | shl (a b d : Addr8)
  /-- R148 -/
  | shr (a b d : Addr8)
  /-- R211 -/
  | poke16 (a : Addr16) (v : Byte)
  /-- R212 -/
  | move16 (src dst : Addr16)
  /-- R213 -/
  | jmp16 (a : Addr16)
  /-- R214: 16-bit target a, 8-bit condition cell c (JZ16_LAYOUT = target16_cell8) -/
  | jz16 (a : Addr16) (c : Addr8)
  /-- R215 -/
  | run16 (a : Addr16)
  /-- Row RESERVED_1F_1F (R90) -/
  | reserved1F
  /-- Row RESERVED_20_2F (R90), with the opcode byte -/
  | reserved20 (op : Byte)
  /-- Row RESERVED_30_33 (R90), with the opcode byte -/
  | reserved30 (op : Byte)
  /-- Row RESERVED_34_35 (R90), with the opcode byte -/
  | reserved34 (op : Byte)
  /-- Row RESERVED_36_36 (R90) -/
  | reserved36
  /-- Row UNASSIGNED_37_37 (R91) -/
  | unassigned37
  /-- Row UNASSIGNED_38_3F (R91), with the opcode byte -/
  | unassigned38 (op : Byte)
  /-- Row UNASSIGNED_40_7F (R91), with the opcode byte -/
  | unassigned40 (op : Byte)
  /-- Row UNASSIGNED_80_FF (R91), with the opcode byte -/
  | unassigned80 (op : Byte)
  deriving DecidableEq, Repr

/-- The rows of the opcode table by name, without operands. -/
inductive Opcode
  | nop | poke | move | not | nand | jmp | jz | run | halt | and | or | xor | inc | dec | cmp | comment
  | putc | putn | getc | ret | add | sub | mul | div | shl | shr
  | poke16 | move16 | jmp16 | jz16 | run16
  | reserved1F | reserved20 | reserved30 | reserved34 | reserved36
  | unassigned37 | unassigned38 | unassigned40 | unassigned80
  deriving DecidableEq, Repr

/-- The ten formats of R72, and `none` for the rows that are no instruction. -/
inductive Format
  | f0 | fa | fl | fav | faa | faaa | fw | fwv | fwa | fww | none
  deriving DecidableEq, Repr

end Sys2Proof
end

