-- ==== Sys2Proof/WellFormed.lean ====
section
/-! DEFINITION. Which terms of `Instr` stand for an encoding. Every value of every operand byte is legal (30_encoding.md
R77), so the 31 instructions are well formed as they stand; the only check is that the opcode byte that a reserved or
unassigned row carries lies in the row's range (30_encoding.md R79, R90, R91; "covers" in spec/opcode_table.json). -/

namespace Sys2Proof

/-- `lo ≤ op ≤ hi` on opcode bytes. -/
def inByteRange (lo hi op : Byte) : Bool := decide (lo.toNat ≤ op.toNat) && decide (op.toNat ≤ hi.toNat)

def Instr.wellFormed : Instr → Bool
  | .nop => true
  | .poke _ _ => true
  | .move _ _ => true
  | .not _ => true
  | .nand _ _ _ => true
  | .jmp _ => true
  | .jz _ _ => true
  | .run _ => true
  | .halt => true
  | .and _ _ _ => true
  | .or _ _ _ => true
  | .xor _ _ _ => true
  | .inc _ => true
  | .dec _ => true
  | .cmp _ _ _ => true
  | .comment _ => true
  | .putc _ => true
  | .putn _ => true
  | .getc _ => true
  | .ret => true
  | .add _ _ _ => true
  | .sub _ _ _ => true
  | .mul _ _ _ => true
  | .div _ _ _ => true
  | .shl _ _ _ => true
  | .shr _ _ _ => true
  | .poke16 _ _ => true
  | .move16 _ _ => true
  | .jmp16 _ => true
  | .jz16 _ _ => true
  | .run16 _ => true
  | .reserved1F => true
  | .reserved20 op => inByteRange 0x20 0x2F op
  | .reserved30 op => inByteRange 0x30 0x33 op
  | .reserved34 op => inByteRange 0x34 0x35 op
  | .reserved36 => true
  | .unassigned37 => true
  | .unassigned38 op => inByteRange 0x38 0x3F op
  | .unassigned40 op => inByteRange 0x40 0x7F op
  | .unassigned80 op => inByteRange 0x80 0xFF op

end Sys2Proof
end

