-- ==== Sys2Proof/Decode.lean ====
section
/-! DEFINITION. The dispatch table's encoding half, the decoder and the encoder (30_encoding.md R70 to R81, R90, R91;
40_engine_step.md R103). The decoder looks at B0 only to choose the instruction (R79) and then takes that instruction's
operand bytes, in the mnemonic's order (R74, R75), 16-bit addresses big-endian (R76). -/

namespace Sys2Proof

/-! ## Bytes of a 16-bit address -/

/-- `hi ++ lo` = hi * 256 + lo (R9, R76): the byte at the lower memory address is the high byte. -/
def joinBytes (hi lo : Byte) : Addr16 := BitVec.ofNat 16 (hi.toNat * 256 + lo.toNat)

/-- The byte of a 16-bit address that stands first in memory (R76). -/
def highByte (a : Addr16) : Byte := BitVec.ofNat 8 (a.toNat / 256)

/-- The byte of a 16-bit address that stands second in memory (R76). -/
def lowByte (a : Addr16) : Byte := BitVec.ofNat 8 (a.toNat % 256)

/-! ## The opcode table -/

/-- One row of spec/opcode_table.json: a byte `b` selects it when `b &&& mask = pattern` (R79). -/
structure OpcodeRow where
  mask : Byte
  pattern : Byte
  opcode : Opcode
  deriving DecidableEq, Repr

/-- The 31 instruction rows (R78, the parameter OPCODE_MAP), mask 0xFF each. -/
def instructionRows : List OpcodeRow :=
  [⟨0xFF, 0x00, .nop⟩, ⟨0xFF, 0x01, .poke⟩, ⟨0xFF, 0x02, .move⟩, ⟨0xFF, 0x03, .not⟩,
   ⟨0xFF, 0x04, .nand⟩, ⟨0xFF, 0x05, .jmp⟩, ⟨0xFF, 0x06, .jz⟩, ⟨0xFF, 0x07, .run⟩] ++
  [⟨0xFF, 0x08, .halt⟩, ⟨0xFF, 0x09, .and⟩, ⟨0xFF, 0x0A, .or⟩, ⟨0xFF, 0x0B, .xor⟩,
   ⟨0xFF, 0x0C, .inc⟩, ⟨0xFF, 0x0D, .dec⟩, ⟨0xFF, 0x0E, .cmp⟩, ⟨0xFF, 0x0F, .comment⟩] ++
  [⟨0xFF, 0x10, .putc⟩, ⟨0xFF, 0x11, .putn⟩, ⟨0xFF, 0x12, .getc⟩, ⟨0xFF, 0x13, .ret⟩,
   ⟨0xFF, 0x14, .add⟩, ⟨0xFF, 0x15, .sub⟩, ⟨0xFF, 0x16, .mul⟩, ⟨0xFF, 0x17, .div⟩] ++
  [⟨0xFF, 0x18, .shl⟩, ⟨0xFF, 0x19, .shr⟩, ⟨0xFF, 0x1A, .poke16⟩, ⟨0xFF, 0x1B, .move16⟩,
   ⟨0xFF, 0x1C, .jmp16⟩, ⟨0xFF, 0x1D, .jz16⟩, ⟨0xFF, 0x1E, .run16⟩]

/-- The nine rows that tile 0x1F to 0xFF (R79, R90, R91). -/
def nonInstructionRows : List OpcodeRow :=
  [⟨0xFF, 0x1F, .reserved1F⟩, ⟨0xF0, 0x20, .reserved20⟩, ⟨0xFC, 0x30, .reserved30⟩, ⟨0xFE, 0x34, .reserved34⟩,
   ⟨0xFF, 0x36, .reserved36⟩] ++
  [⟨0xFF, 0x37, .unassigned37⟩, ⟨0xF8, 0x38, .unassigned38⟩, ⟨0xC0, 0x40, .unassigned40⟩, ⟨0x80, 0x80, .unassigned80⟩]

def opcodeTable : List OpcodeRow := instructionRows ++ nonInstructionRows

/-- A byte selects a row (R79). -/
def OpcodeRow.selects (r : OpcodeRow) (b : Byte) : Bool := b &&& r.mask == r.pattern

/-- Phase P4's lookup (R101, R79): the row an opcode byte selects. -/
def lookupOpcode (b : Byte) : Option Opcode := (opcodeTable.find? (fun r => r.selects b)).map (·.opcode)

/-- The format column of R78 and R103. -/
def Opcode.format : Opcode → Format
  | .nop => .f0
  | .poke => .fav
  | .move => .faa
  | .not => .fa
  | .nand => .faaa
  | .jmp => .fa
  | .jz => .faa
  | .run => .fa
  | .halt => .f0
  | .and => .faaa
  | .or => .faaa
  | .xor => .faaa
  | .inc => .fa
  | .dec => .fa
  | .cmp => .faaa
  | .comment => .fl
  | .putc => .fa
  | .putn => .fa
  | .getc => .fa
  | .ret => .f0
  | .add => .faaa
  | .sub => .faaa
  | .mul => .faaa
  | .div => .faaa
  | .shl => .faaa
  | .shr => .faaa
  | .poke16 => .fwv
  | .move16 => .fww
  | .jmp16 => .fw
  | .jz16 => .fwa
  | .run16 => .fw
  | .reserved1F => .none
  | .reserved20 => .none
  | .reserved30 => .none
  | .reserved34 => .none
  | .reserved36 => .none
  | .unassigned37 => .none
  | .unassigned38 => .none
  | .unassigned40 => .none
  | .unassigned80 => .none

/-- The width column of R72: bytes an instruction of the format occupies, opcode byte included; for FL the head. Of a row
that is no instruction only the opcode byte is fetched (R116). -/
def Format.width : Format → Nat
  | .f0 => 1
  | .fa => 2
  | .fl => 2
  | .fav => 3
  | .faa => 3
  | .faaa => 4
  | .fw => 3
  | .fwv => 4
  | .fwa => 4
  | .fww => 5
  | .none => 1

/-- W of the dispatch table (R103): the width passed to HasOperands. -/
def Opcode.width (op : Opcode) : Nat := op.format.width

/-- The row of the table an instruction belongs to. -/
def Instr.opcode : Instr → Opcode
  | .nop => .nop
  | .poke _ _ => .poke
  | .move _ _ => .move
  | .not _ => .not
  | .nand _ _ _ => .nand
  | .jmp _ => .jmp
  | .jz _ _ => .jz
  | .run _ => .run
  | .halt => .halt
  | .and _ _ _ => .and
  | .or _ _ _ => .or
  | .xor _ _ _ => .xor
  | .inc _ => .inc
  | .dec _ => .dec
  | .cmp _ _ _ => .cmp
  | .comment _ => .comment
  | .putc _ => .putc
  | .putn _ => .putn
  | .getc _ => .getc
  | .ret => .ret
  | .add _ _ _ => .add
  | .sub _ _ _ => .sub
  | .mul _ _ _ => .mul
  | .div _ _ _ => .div
  | .shl _ _ _ => .shl
  | .shr _ _ _ => .shr
  | .poke16 _ _ => .poke16
  | .move16 _ _ => .move16
  | .jmp16 _ => .jmp16
  | .jz16 _ _ => .jz16
  | .run16 _ => .run16
  | .reserved1F => .reserved1F
  | .reserved20 _ => .reserved20
  | .reserved30 _ => .reserved30
  | .reserved34 _ => .reserved34
  | .reserved36 => .reserved36
  | .unassigned37 => .unassigned37
  | .unassigned38 _ => .unassigned38
  | .unassigned40 _ => .unassigned40
  | .unassigned80 _ => .unassigned80

/-- Bytes an instruction occupies in memory: W, and 2 + len for COMMENT, payload included (R80, R81). -/
def Instr.length : Instr → Nat
  | .comment len => 2 + len.toNat
  | i => i.opcode.width

/-! ## The decoder -/

/-- Why a byte list decodes to nothing. -/
inductive DecodeError
  /-- There is no opcode byte. -/
  | empty
  /-- The list ends before the instruction's fixed part does. -/
  | truncated
  /-- No row of the table matches (the 40 rows match every byte, so this never comes). -/
  | noRow
  deriving DecidableEq, Repr

/-- No operand byte (F0, and the rows that are no instruction). -/
def take0 (i : Instr) (bs : List Byte) : Except DecodeError (Instr × List Byte) := .ok (i, bs)

/-- One operand byte (FA, FL). -/
def take1 (k : Byte → Instr) : List Byte → Except DecodeError (Instr × List Byte)
  | b1 :: bs => .ok (k b1, bs)
  | [] => .error .truncated

/-- Two operand bytes (FAV, FAA, FW). -/
def take2 (k : Byte → Byte → Instr) : List Byte → Except DecodeError (Instr × List Byte)
  | b1 :: b2 :: bs => .ok (k b1 b2, bs)
  | _ => .error .truncated

/-- Three operand bytes (FAAA, FWV, FWA). -/
def take3 (k : Byte → Byte → Byte → Instr) : List Byte → Except DecodeError (Instr × List Byte)
  | b1 :: b2 :: b3 :: bs => .ok (k b1 b2 b3, bs)
  | _ => .error .truncated

/-- Four operand bytes (FWW). -/
def take4 (k : Byte → Byte → Byte → Byte → Instr) : List Byte → Except DecodeError (Instr × List Byte)
  | b1 :: b2 :: b3 :: b4 :: bs => .ok (k b1 b2 b3 b4, bs)
  | _ => .error .truncated

/-- The operand bytes of R72, R74 and R75, after the opcode byte `b0`. -/
def decodeOperands (op : Opcode) (b0 : Byte) : List Byte → Except DecodeError (Instr × List Byte) :=
  match op with
  | .nop => take0 .nop
  | .poke => take2 (fun a v => .poke a v)
  | .move => take2 (fun s d => .move s d)
  | .not => take1 (fun a => .not a)
  | .nand => take3 (fun a b d => .nand a b d)
  | .jmp => take1 (fun a => .jmp a)
  | .jz => take2 (fun a c => .jz a c)
  | .run => take1 (fun a => .run a)
  | .halt => take0 .halt
  | .and => take3 (fun a b d => .and a b d)
  | .or => take3 (fun a b d => .or a b d)
  | .xor => take3 (fun a b d => .xor a b d)
  | .inc => take1 (fun a => .inc a)
  | .dec => take1 (fun a => .dec a)
  | .cmp => take3 (fun a b d => .cmp a b d)
  | .comment => take1 (fun len => .comment len)
  | .putc => take1 (fun a => .putc a)
  | .putn => take1 (fun a => .putn a)
  | .getc => take1 (fun a => .getc a)
  | .ret => take0 .ret
  | .add => take3 (fun a b d => .add a b d)
  | .sub => take3 (fun a b d => .sub a b d)
  | .mul => take3 (fun a b d => .mul a b d)
  | .div => take3 (fun a b d => .div a b d)
  | .shl => take3 (fun a b d => .shl a b d)
  | .shr => take3 (fun a b d => .shr a b d)
  | .poke16 => take3 (fun hi lo v => .poke16 (joinBytes hi lo) v)
  | .move16 => take4 (fun sh sl dh dl => .move16 (joinBytes sh sl) (joinBytes dh dl))
  | .jmp16 => take2 (fun hi lo => .jmp16 (joinBytes hi lo))
  | .jz16 => take3 (fun hi lo c => .jz16 (joinBytes hi lo) c)
  | .run16 => take2 (fun hi lo => .run16 (joinBytes hi lo))
  | .reserved1F => take0 .reserved1F
  | .reserved20 => take0 (.reserved20 b0)
  | .reserved30 => take0 (.reserved30 b0)
  | .reserved34 => take0 (.reserved34 b0)
  | .reserved36 => take0 .reserved36
  | .unassigned37 => take0 .unassigned37
  | .unassigned38 => take0 (.unassigned38 b0)
  | .unassigned40 => take0 (.unassigned40 b0)
  | .unassigned80 => take0 (.unassigned80 b0)

/-- The instruction at the head of a byte list and the bytes after its fixed part; of COMMENT the payload is left in the
rest, since the machine never reads it (R81). -/
def decode : List Byte → Except DecodeError (Instr × List Byte)
  | [] => .error .empty
  | b0 :: bs =>
    match lookupOpcode b0 with
    | some op => decodeOperands op b0 bs
    | none => .error .noRow

/-! ## The encoder -/

/-- The bytes of an instruction's fixed part (R72, R74 to R76, R78; `encoding` in spec/opcode_table.json); of COMMENT the
two-byte head. Written out from the tables, so that it does not call the decoder's. -/
def encode : Instr → List Byte
  | .nop => [0x00]
  | .poke a v => [0x01, a, v]
  | .move s d => [0x02, s, d]
  | .not a => [0x03, a]
  | .nand a b d => [0x04, a, b, d]
  | .jmp a => [0x05, a]
  | .jz a c => [0x06, a, c]
  | .run a => [0x07, a]
  | .halt => [0x08]
  | .and a b d => [0x09, a, b, d]
  | .or a b d => [0x0A, a, b, d]
  | .xor a b d => [0x0B, a, b, d]
  | .inc a => [0x0C, a]
  | .dec a => [0x0D, a]
  | .cmp a b d => [0x0E, a, b, d]
  | .comment len => [0x0F, len]
  | .putc a => [0x10, a]
  | .putn a => [0x11, a]
  | .getc a => [0x12, a]
  | .ret => [0x13]
  | .add a b d => [0x14, a, b, d]
  | .sub a b d => [0x15, a, b, d]
  | .mul a b d => [0x16, a, b, d]
  | .div a b d => [0x17, a, b, d]
  | .shl a b d => [0x18, a, b, d]
  | .shr a b d => [0x19, a, b, d]
  | .poke16 a v => [0x1A, highByte a, lowByte a, v]
  | .move16 s d => [0x1B, highByte s, lowByte s, highByte d, lowByte d]
  | .jmp16 a => [0x1C, highByte a, lowByte a]
  | .jz16 a c => [0x1D, highByte a, lowByte a, c]
  | .run16 a => [0x1E, highByte a, lowByte a]
  | .reserved1F => [0x1F]
  | .reserved20 op => [op]
  | .reserved30 op => [op]
  | .reserved34 op => [op]
  | .reserved36 => [0x36]
  | .unassigned37 => [0x37]
  | .unassigned38 op => [op]
  | .unassigned40 op => [op]
  | .unassigned80 op => [op]

/-! ## Words as spec/opcode_table.json numbers them -/

/-- The first `n` bytes of the word `w` of `nbits` bits, the first byte in bits 7..0, every bit above `nbits` zero. -/
def tableBytes (nbits w n : Nat) : List Byte :=
  (List.range n).map (fun k => if 8 * k < nbits then BitVec.ofNat 8 (w / 2 ^ (8 * k)) else 0)

/-- The longest fixed part of an instruction, MOVE16's five bytes (R72). -/
def maxWidth : Nat := 5

/-- The instruction the decoder reads from a table word. -/
def decodeTableWord (nbits w : Nat) : Option Instr :=
  match decode (tableBytes nbits w maxWidth) with
  | .ok (i, _) => some i
  | .error _ => none

/-- All the bytes of a table word's instruction, a COMMENT's payload of zeros included. -/
def tableInstrBytes (nbits w : Nat) : List Byte :=
  match decodeTableWord nbits w with
  | some i => tableBytes nbits w i.length
  | none => []

end Sys2Proof
end

