-- ==== Sys2Proof/Machine/Operands.lean ====
section
/-! DEFINITION. The operand forms and the two validators (20_memory.md R59; 40_engine_step.md R104, R106). -/

namespace Sys2Proof.Machine

/-- Absolute 8-bit addressing: effective address = zext_16(Bi) (R59, R77). Absolute 16-bit addressing is the operand
itself, assembled by `joinBytes` (R59, R76). -/
def ea8 (a : Addr8) : Addr16 := a.setWidth 16

/-- HasOperands(p, n), on unbounded integers: the sum never wraps (R104). -/
def hasOperands (p n : Nat) : Bool := decide (p < Config.memorySize) && decide (p + n ≤ Config.memorySize)

/-- ValidAddr(a) for a given ADDR_LIMIT (R106). -/
def validAddr (addrLimit : Nat) (a : Addr16) : Bool := decide (a.toNat < addrLimit)

end Sys2Proof.Machine
end

