-- ==== Sys2Proof/Machine/State.lean ====
section
/-! DEFINITION. The state as plain data (10_state.md R21 to R30, R39, R40), its value after reset (R35, R37), and the
reasons the model stops with. Every architectural fault of the engine is a value of RUNSTATE, not a stop (R240). -/

namespace Sys2Proof.Machine

/-- RUNSTATE (R27). -/
inductive RunState
  /-- Between reset and run: the host loads; no step is enabled. -/
  | idle
  | running
  /-- Halted(Normal), entered by HALT with an empty call stack only (R120, R163). -/
  | haltedNormal
  /-- Halted(Fault k), entered by a raise only (R120, R240). -/
  | haltedFault (k : FaultKind)
  deriving DecidableEq, Repr

/-- Memory M (R30), sparse: (address, byte) pairs, addresses strictly rising, no byte 0x00, because a cell that is not
listed reads 0x00 ("zero-initialized at machine reset"). -/
abbrev Memory := List Host.Cell

/-- The environment's input (R40): IN, INPOS, and whether the end of input is signalled. With `ended` true the bytes are
the whole of IN, fixed by the host in advance; with `ended` false more may arrive, the timed reading of R102. -/
structure InputStream where
  bytes : List Byte
  pos : Nat
  ended : Bool
  deriving DecidableEq, Repr

/-- The complete state (R21): the machine's tuple (M, STK, SP, pc, OF, ICOUNT, RUNSTATE, FKIND, FPC) and the
environment's OUT and IN. -/
structure State where
  /-- M (R30) -/
  mem : Memory
  /-- STK[0..63] (R26) -/
  stk : Vector Addr16 64
  /-- SP, 0..64 (R25) -/
  sp : Fin 65
  /-- pc (R22) -/
  pc : Pc
  /-- OF (R23) -/
  of : Bool
  /-- ICOUNT, ICOUNT_WIDTH = 32 bits (R24) -/
  icount : BitVec 32
  /-- RUNSTATE (R27) -/
  runState : RunState
  /-- FKIND; none is the spec's None (R28) -/
  fkind : Option FaultKind
  /-- FPC (R29) -/
  fpc : Pc
  /-- OUT, oldest byte first (R39) -/
  out : List Byte
  /-- IN and INPOS (R40) -/
  input : InputStream
  deriving DecidableEq, Repr

/-- The state after reset (R35, R37, R270). The stack slots, which the spec leaves unspecified, and the empty ended IN
are the model's choices (DESIGN CHOICE, log 2 and log 4). -/
def State.reset : State where
  mem := []
  stk := Vector.replicate 64 0
  sp := 0
  pc := 0
  of := false
  icount := 0
  runState := .idle
  fkind := none
  fpc := 0
  out := []
  input := { bytes := [], pos := 0, ended := true }

/-- Why the model stops. "A step begins only in RUNSTATE = Running" (R102): asking for one elsewhere is a stuck state. No
instruction raises either. -/
inductive Fault
  /-- Raised by `step` in RUNSTATE = Idle, where no step is enabled (R27, R102). Safe: the hardware does nothing there. -/
  | idle
  /-- Raised by `step` in a Halted state, where no step is enabled until reset (R120). Safe: the hardware does nothing
  there. -/
  | halted
  deriving DecidableEq, Repr

/-- Host transactions the machine refuses, and the name an instruction without a meaning would be rejected by. -/
inductive Refusal
  /-- Raised by exec for a row without a meaning; every row of this model has one. Safe. -/
  | notModelled (mnemonic : String)
  /-- Raised by the host's load outside Idle ("Accepted only in RUNSTATE = Idle", R38). Safe. -/
  | loadOutsideIdle
  /-- Raised by the host's run outside Idle (R42). Safe. -/
  | runOutsideIdle
  /-- Raised when the host fixes IN outside Idle, out of the order of R275. Safe. -/
  | inputOutsideIdle
  /-- Raised when the host supplies input after the end of input, which is sticky (R40). Safe. -/
  | inputEnded
  deriving DecidableEq, Repr

end Sys2Proof.Machine
end

