-- ==== Sys2Proof/Machine/Ops.lean ====
section
/-! DEFINITION. The named operations over memory, call stack, program counter, flag and streams, taking a fault, and the
shapes that several instructions share (20_memory.md R52, R53, R65; 40_engine_step.md R109 to R119; 10_state.md R39, R40;
60_exceptions.md R240). -/

namespace Sys2Proof.Machine

/-! ## Memory -/

/-- What a cell that is not listed reads as: memory is zero-initialised (R30, R35). -/
def unlistedByte : Byte := 0

/-- The byte at an address (R52). -/
def Memory.read : Memory → Nat → Byte
  | [], _ => unlistedByte
  | c :: cs, a => if c.1 = a then c.2 else Memory.read cs a

/-- The list without the entries of an address. -/
def Memory.erase (m : Memory) (a : Nat) : Memory := m.filter (fun c => decide (c.1 ≠ a))

/-- An entry put before the first entry with a greater address. -/
def Memory.insertEntry (a : Nat) (v : Byte) : Memory → Memory
  | [] => [(a, v)]
  | c :: cs => if a < c.1 then (a, v) :: c :: cs else c :: Memory.insertEntry a v cs

/-- The memory in which the cell at `a` holds `v` and no other cell has changed (R53), in canonical form. -/
def Memory.write (m : Memory) (a : Nat) (v : Byte) : Memory :=
  if v = unlistedByte then m.erase a else Memory.insertEntry a v (m.erase a)

/-- The canonical form: addresses strictly rising and inside the space (R50), no entry equal to what an unlisted cell
reads as. -/
abbrev Memory.wf (m : Memory) : Prop :=
  m.Pairwise (fun c d => c.1 < d.1) ∧ ∀ c ∈ m, c.1 < Config.memorySize ∧ c.2 ≠ unlistedByte

/-- Bytes written one after another from an address up; those at MEMORY_SIZE and above are discarded (R38). -/
def Memory.writeBytes (m : Memory) (base : Nat) : List Byte → Memory
  | [] => m
  | b :: bs =>
    if base < Config.memorySize then Memory.writeBytes (m.write base b) (base + 1) bs else m

/-- MemRead(addr, 1) (R52). -/
def State.memRead (s : State) (a : Addr16) : Byte := s.mem.read a.toNat

/-- MemWrite(addr, 1, v) (R53). -/
def State.memWrite (s : State) (a : Addr16) (v : Byte) : State := { s with mem := s.mem.write a.toNat v }

/-! ## The program-counter multiplexer -/

/-- The six sources of the next pc (R118). -/
inductive PcSource
  /-- pc + W -/
  | seq (w : Nat)
  /-- pc + 2 + len -/
  | skip (len : Byte)
  | abs8 (target : Addr8)
  | abs16 (target : Addr16)
  /-- the value returned by Pop -/
  | pop (entry : Addr16)
  /-- pc unchanged -/
  | hold
  deriving DecidableEq, Repr

/-- The value a source selects; sums are on unbounded integers (R118, R119). -/
def nextPc (pc : Pc) : PcSource → Pc
  | .seq w => BitVec.ofNat 32 (pc.toNat + w)
  | .skip len => BitVec.ofNat 32 (pc.toNat + 2 + len.toNat)
  | .abs8 target => target.setWidth 32
  | .abs16 target => target.setWidth 32
  | .pop entry => entry.setWidth 32
  | .hold => pc

/-- Phase P8: pc takes the selected value (R101, R118). -/
def State.commitPc (s : State) (src : PcSource) : State := { s with pc := nextPc s.pc src }

/-- SEQ with the width of the dispatch table (R103, R118). -/
def State.advance (s : State) (op : Opcode) : State := s.commitPc (.seq op.width)

/-! ## Flag, counter, run state -/

/-- OF takes a flag bit (R23). -/
def State.setOf (s : State) (flag : Bool) : State := { s with of := flag }

/-- Phase P1's increment (R114). -/
def State.count (s : State) : State := { s with icount := BitVec.ofNat 32 (s.icount.toNat + 1) }

/-- RUNSTATE takes Halted(Normal) (R163). -/
def State.halt (s : State) : State := { s with runState := .haltedNormal }

/-- Taking a fault, `raise K(pc)`: RUNSTATE, FKIND and FPC are set and nothing else changes; pc is unchanged (R240). There
is no handler and no return from a fault (R244). -/
def State.raise (s : State) (k : FaultKind) : State :=
  { s with runState := .haltedFault k, fkind := some k, fpc := s.pc }

/-- The step's answer when a fault is taken: a next state (R240). -/
def raiseFault (k : FaultKind) (s : State) : Host.Outcome State Fault Refusal := .next (s.raise k)

/-! ## The call-stack controller -/

/-- Push(v): none is the overflow report, which changes nothing (R110). -/
def State.push (s : State) (v : Addr16) : Option State :=
  if h : s.sp.val < 64 then
    some { s with stk := s.stk.set s.sp.val v h, sp := ⟨s.sp.val + 1, Nat.succ_lt_succ h⟩ }
  else none

/-- Pop(): none is the underflow report, which changes nothing; the vacated slot keeps its content (R111). -/
def State.pop (s : State) : Option (Addr16 × State) :=
  if h : s.sp.val = 0 then none
  else
    have hlt : s.sp.val - 1 < 64 := by have := s.sp.isLt; omega
    some (s.stk[s.sp.val - 1]'hlt, { s with sp := ⟨s.sp.val - 1, Nat.lt_succ_of_lt hlt⟩ })

/-! ## The streams -/

/-- Emit, for one byte or several in order (R39). -/
def State.emit (s : State) (bs : List Byte) : State := { s with out := s.out ++ bs }

/-- The environment can answer Input() now: a byte is ready or the end of input is signalled (R40, R102). -/
def State.inputReady (s : State) : Bool := decide (s.input.pos < s.input.bytes.length) || s.input.ended

/-- Input(): the next byte of IN, or 0 with INPOS unchanged at the end of input (R40); none while the environment can
answer neither way (R102). -/
def State.takeInput (s : State) : Option (Byte × State) :=
  match s.input.bytes[s.input.pos]? with
  | some b => some (b, { s with input := { s.input with pos := s.input.pos + 1 } })
  | none => if s.input.ended then some (0, s) else none

/-! ## Shapes shared by instructions -/

/-- One cell, source and destination: r a, w a (R66). -/
def unaryOp (op : Opcode) (f : Byte → Byte) (a : Addr8) (s : State) : Host.Outcome State Fault Refusal :=
  let t := s.memRead (ea8 a)
  .next ((s.memWrite (ea8 a) (f t)).advance op)

/-- Two source cells and a destination: both reads before the write (R65, R66). -/
def binaryOp (op : Opcode) (f : Byte → Byte → Byte) (a b d : Addr8) (s : State) : Host.Outcome State Fault Refusal :=
  let x := s.memRead (ea8 a)
  let y := s.memRead (ea8 b)
  .next ((s.memWrite (ea8 d) (f x y)).advance op)

/-- A binary operation that also writes OF (R180, R187). -/
def flaggedOp (op : Opcode) (f : Byte → Byte → Byte) (flag : Byte → Byte → Bool) (a b d : Addr8) (s : State) :
    Host.Outcome State Fault Refusal :=
  let x := s.memRead (ea8 a)
  let y := s.memRead (ea8 b)
  .next (((s.memWrite (ea8 d) (f x y)).setOf (flag x y)).advance op)

/-- A jump to `target` when the byte of the condition cell is zero, else SEQ (R118, R161). -/
def branchIfZero (op : Opcode) (target : PcSource) (c : Addr8) (s : State) : Host.Outcome State Fault Refusal :=
  if s.memRead (ea8 c) = 0 then .next (s.commitPc target) else .next (s.advance op)

/-- A call: the return address pc + W is checked, then pushed, then control goes to `target` (R113, R162, R215). -/
def callTo (op : Opcode) (target : PcSource) (s : State) : Host.Outcome State Fault Refusal :=
  let ret := s.pc.toNat + op.width
  if ret ≥ Config.memorySize then raiseFault .invalidAddress s
  else
    match s.push (BitVec.ofNat 16 ret) with
    | none => raiseFault .stackOverflow s
    | some s' => .next (s'.commitPc target)

/-- Pop and resume at the popped address; the controller's underflow report would be StackUnderflow (R109), which neither
of its two callers lets happen (R238). -/
def popAndResume (s : State) : Host.Outcome State Fault Refusal :=
  match s.pop with
  | some (entry, s') => .next (s'.commitPc (.pop entry))
  | none => raiseFault .stackUnderflow s

end Sys2Proof.Machine
end

