-- ==== Sys2Proof/Machine/Addr16Forms.lean ====
section
/-! DEFINITION. POKE16, MOVE16, JMP16, JZ16 and RUN16 (46_addr16.md R210 to R215). Every decoded 16-bit address passes
ValidAddr before any read, write, push or pc change (R107). Each meaning is written for any ADDR_LIMIT (`…Within`), as R106
and R210 ask, and taken at this hardware's value. -/

namespace Sys2Proof.Machine

/-- R211 for a given ADDR_LIMIT. -/
def poke16Within (addrLimit : Nat) (a : Addr16) (v : Byte) (s : State) : Host.Outcome State Fault Refusal :=
  if validAddr addrLimit a then .next ((s.memWrite a v).advance .poke16) else raiseFault .invalidAddress s

/-- R212 for a given ADDR_LIMIT: both addresses are checked before the read, the source first. -/
def move16Within (addrLimit : Nat) (src dst : Addr16) (s : State) : Host.Outcome State Fault Refusal :=
  if validAddr addrLimit src then
    if validAddr addrLimit dst then
      let t := s.memRead src
      .next ((s.memWrite dst t).advance .move16)
    else raiseFault .invalidAddress s
  else raiseFault .invalidAddress s

/-- R213 for a given ADDR_LIMIT. -/
def jmp16Within (addrLimit : Nat) (a : Addr16) (s : State) : Host.Outcome State Fault Refusal :=
  if validAddr addrLimit a then .next (s.commitPc (.abs16 a)) else raiseFault .invalidAddress s

/-- R214 for a given ADDR_LIMIT: the target is checked whether or not the branch is taken. -/
def jz16Within (addrLimit : Nat) (a : Addr16) (c : Addr8) (s : State) : Host.Outcome State Fault Refusal :=
  if validAddr addrLimit a then branchIfZero .jz16 (.abs16 a) c s else raiseFault .invalidAddress s

/-- R215 for a given ADDR_LIMIT: the target is checked before the return address and the stack. -/
def run16Within (addrLimit : Nat) (a : Addr16) (s : State) : Host.Outcome State Fault Refusal :=
  if validAddr addrLimit a then callTo .run16 (.abs16 a) s else raiseFault .invalidAddress s

/-- R211. -/
def execPoke16 (a : Addr16) (v : Byte) (s : State) : Host.Outcome State Fault Refusal :=
  poke16Within Config.addrLimit a v s

/-- R212. -/
def execMove16 (src dst : Addr16) (s : State) : Host.Outcome State Fault Refusal :=
  move16Within Config.addrLimit src dst s

/-- R213. -/
def execJmp16 (a : Addr16) (s : State) : Host.Outcome State Fault Refusal := jmp16Within Config.addrLimit a s

/-- R214. -/
def execJz16 (a : Addr16) (c : Addr8) (s : State) : Host.Outcome State Fault Refusal :=
  jz16Within Config.addrLimit a c s

/-- R215. -/
def execRun16 (a : Addr16) (s : State) : Host.Outcome State Fault Refusal := run16Within Config.addrLimit a s

end Sys2Proof.Machine
end

