-- ==== Sys2Proof/Machine/Arithmetic.lean ====
section
/-! DEFINITION. INC, DEC, ADD, SUB, MUL and DIV (44_arithmetic.md R180 to R187). ADD, SUB and MUL write OF on every
execution; nothing else writes it. -/

namespace Sys2Proof.Machine

/-- R181. -/
def execInc (a : Addr8) (s : State) : Host.Outcome State Fault Refusal := unaryOp .inc aluInc a s

/-- R182. -/
def execDec (a : Addr8) (s : State) : Host.Outcome State Fault Refusal := unaryOp .dec aluDec a s

/-- R183. -/
def execAdd (a b d : Addr8) (s : State) : Host.Outcome State Fault Refusal := flaggedOp .add aluAdd addFlag a b d s

/-- R184: [a] minus [b]. -/
def execSub (a b d : Addr8) (s : State) : Host.Outcome State Fault Refusal := flaggedOp .sub aluSub subFlag a b d s

/-- R185. -/
def execMul (a b d : Addr8) (s : State) : Host.Outcome State Fault Refusal := flaggedOp .mul aluMul mulFlag a b d s

/-- R186: the divisor is tested after both reads and before the write. -/
def execDiv (a b d : Addr8) (s : State) : Host.Outcome State Fault Refusal :=
  if s.memRead (ea8 b) = 0 then raiseFault .divisionByZero s else binaryOp .div aluDiv a b d s

end Sys2Proof.Machine
end

