-- ==== Sys2Proof/Machine/ControlFlow.lean ====
section
/-! DEFINITION. JMP, JZ, RUN, HALT and RET (43_control_flow.md R160 to R165). None writes OF or memory. -/

namespace Sys2Proof.Machine

/-- R160. -/
def execJmp (a : Addr8) (s : State) : Host.Outcome State Fault Refusal := .next (s.commitPc (.abs8 a))

/-- R161. -/
def execJz (a c : Addr8) (s : State) : Host.Outcome State Fault Refusal := branchIfZero .jz (.abs8 a) c s

/-- R162. -/
def execRun (a : Addr8) (s : State) : Host.Outcome State Fault Refusal := callTo .run (.abs8 a) s

/-- R163: a return while a call is outstanding, else the normal end of the run, with pc held. -/
def execHalt (s : State) : Host.Outcome State Fault Refusal :=
  if s.sp.val > 0 then popAndResume s else .next (s.halt.commitPc .hold)

/-- R164. -/
def execRet (s : State) : Host.Outcome State Fault Refusal :=
  if s.sp.val = 0 then raiseFault .retWithEmptyStack s else popAndResume s

end Sys2Proof.Machine
end

