-- ==== Sys2Proof/Machine/DataMovement.lean ====
section
/-! DEFINITION. NOP, POKE, MOVE and COMMENT (41_data_movement.md R130 to R133). Each meaning is the execute phase P7 with
the commit P8; phases P1 to P6 stand in Phases.lean. -/

namespace Sys2Proof.Machine

/-- R130. -/
def execNop (s : State) : Host.Outcome State Fault Refusal := .next (s.advance .nop)

/-- R131. -/
def execPoke (a : Addr8) (v : Byte) (s : State) : Host.Outcome State Fault Refusal :=
  .next ((s.memWrite (ea8 a) v).advance .poke)

/-- R132. -/
def execMove (src dst : Addr8) (s : State) : Host.Outcome State Fault Refusal :=
  let t := s.memRead (ea8 src)
  .next ((s.memWrite (ea8 dst) t).advance .move)

/-- R133, for a given COMMENT_OVERRUN_FAULT. -/
def commentWithin (overrun : FaultKind) (len : Byte) (s : State) : Host.Outcome State Fault Refusal :=
  if hasOperands s.pc.toNat (2 + len.toNat) then .next (s.commitPc (.skip len)) else raiseFault overrun s

/-- R133. -/
def execComment (len : Byte) (s : State) : Host.Outcome State Fault Refusal :=
  commentWithin Config.commentOverrunFault len s

end Sys2Proof.Machine
end

