-- ==== Sys2Proof/Machine/InputOutput.lean ====
section
/-! DEFINITION. PUTC, PUTN and GETC (45_io.md R200 to R203). -/

namespace Sys2Proof.Machine

/-- R201: the raw byte of the cell. -/
def execPutc (a : Addr8) (s : State) : Host.Outcome State Fault Refusal :=
  let t := s.memRead (ea8 a)
  .next ((s.emit [t]).advance .putc)

/-- R202: the cell's value as unsigned decimal text. -/
def execPutn (a : Addr8) (s : State) : Host.Outcome State Fault Refusal :=
  let t := s.memRead (ea8 a)
  .next ((s.emit (decimalText t)).advance .putn)

/-- R203. While the environment can answer neither with a byte nor with end of input, nothing changes (R102). -/
def execGetc (a : Addr8) (s : State) : Host.Outcome State Fault Refusal :=
  match s.takeInput with
  | some (v, s') => .next ((s'.memWrite (ea8 a) v).advance .getc)
  | none => .next s

end Sys2Proof.Machine
end

