-- ==== Sys2Proof/Machine/Logic.lean ====
section
/-! DEFINITION. NOT, NAND, AND, OR, XOR, CMP, SHL and SHR (42_logic_shift_compare.md R140 to R148). None writes OF. -/

namespace Sys2Proof.Machine

/-- R141. -/
def execNot (a : Addr8) (s : State) : Host.Outcome State Fault Refusal := unaryOp .not aluNot a s

/-- R142. -/
def execNand (a b d : Addr8) (s : State) : Host.Outcome State Fault Refusal := binaryOp .nand aluNand a b d s

/-- R143. -/
def execAnd (a b d : Addr8) (s : State) : Host.Outcome State Fault Refusal := binaryOp .and aluAnd a b d s

/-- R144. -/
def execOr (a b d : Addr8) (s : State) : Host.Outcome State Fault Refusal := binaryOp .or aluOr a b d s

/-- R145. -/
def execXor (a b d : Addr8) (s : State) : Host.Outcome State Fault Refusal := binaryOp .xor aluXor a b d s

/-- R146. -/
def execCmp (a b d : Addr8) (s : State) : Host.Outcome State Fault Refusal := binaryOp .cmp aluEq a b d s

/-- R147. -/
def execShl (a b d : Addr8) (s : State) : Host.Outcome State Fault Refusal := binaryOp .shl aluShl a b d s

/-- R148. -/
def execShr (a b d : Addr8) (s : State) : Host.Outcome State Fault Refusal := binaryOp .shr aluShr a b d s

end Sys2Proof.Machine
end

