-- ==== Sys2Proof/Machine/UnknownOpcodes.lean ====
section
/-! DEFINITION. The opcode bytes above 0x1E, reserved (30_encoding.md R90) and unassigned (R91): fetching one raises
UnknownOpcode (40_engine_step.md R116; 60_exceptions.md R234). The fault is phase P4's; nothing that a state shows lies
between P4 and P7 for a row of width 1, whose width check cannot fail, so it is taken here (log 8). -/

namespace Sys2Proof.Machine

/-- The step's answer to an opcode byte above 0x1E, whichever it is (R116). -/
def unknownOpcode (s : State) : Host.Outcome State Fault Refusal := raiseFault .unknownOpcode s

/-- R90. -/
def execReserved1F (s : State) : Host.Outcome State Fault Refusal := unknownOpcode s

/-- R90. -/
def execReserved20 (_op : Byte) (s : State) : Host.Outcome State Fault Refusal := unknownOpcode s

/-- R90. -/
def execReserved30 (_op : Byte) (s : State) : Host.Outcome State Fault Refusal := unknownOpcode s

/-- R90. -/
def execReserved34 (_op : Byte) (s : State) : Host.Outcome State Fault Refusal := unknownOpcode s

/-- R90. -/
def execReserved36 (s : State) : Host.Outcome State Fault Refusal := unknownOpcode s

/-- R91. -/
def execUnassigned37 (s : State) : Host.Outcome State Fault Refusal := unknownOpcode s

/-- R91. -/
def execUnassigned38 (_op : Byte) (s : State) : Host.Outcome State Fault Refusal := unknownOpcode s

/-- R91. -/
def execUnassigned40 (_op : Byte) (s : State) : Host.Outcome State Fault Refusal := unknownOpcode s

/-- R91. -/
def execUnassigned80 (_op : Byte) (s : State) : Host.Outcome State Fault Refusal := unknownOpcode s

end Sys2Proof.Machine
end

