-- ==== Sys2Proof/Machine/Dispatch.lean ====
section
/-! DEFINITION. The dispatcher: one arm per row of the opcode table, each a direct call of that row's meaning, phases P7 and
P8 of 40_engine_step.md R101. -/

namespace Sys2Proof.Machine

def exec (i : Instr) (s : State) : Host.Outcome State Fault Refusal :=
  match i with
  | .nop => Sys2Proof.Machine.execNop s
  | .poke a v => Sys2Proof.Machine.execPoke a v s
  | .move src dst => Sys2Proof.Machine.execMove src dst s
  | .not a => Sys2Proof.Machine.execNot a s
  | .nand a b d => Sys2Proof.Machine.execNand a b d s
  | .jmp a => Sys2Proof.Machine.execJmp a s
  | .jz a c => Sys2Proof.Machine.execJz a c s
  | .run a => Sys2Proof.Machine.execRun a s
  | .halt => Sys2Proof.Machine.execHalt s
  | .and a b d => Sys2Proof.Machine.execAnd a b d s
  | .or a b d => Sys2Proof.Machine.execOr a b d s
  | .xor a b d => Sys2Proof.Machine.execXor a b d s
  | .inc a => Sys2Proof.Machine.execInc a s
  | .dec a => Sys2Proof.Machine.execDec a s
  | .cmp a b d => Sys2Proof.Machine.execCmp a b d s
  | .comment len => Sys2Proof.Machine.execComment len s
  | .putc a => Sys2Proof.Machine.execPutc a s
  | .putn a => Sys2Proof.Machine.execPutn a s
  | .getc a => Sys2Proof.Machine.execGetc a s
  | .ret => Sys2Proof.Machine.execRet s
  | .add a b d => Sys2Proof.Machine.execAdd a b d s
  | .sub a b d => Sys2Proof.Machine.execSub a b d s
  | .mul a b d => Sys2Proof.Machine.execMul a b d s
  | .div a b d => Sys2Proof.Machine.execDiv a b d s
  | .shl a b d => Sys2Proof.Machine.execShl a b d s
  | .shr a b d => Sys2Proof.Machine.execShr a b d s
  | .poke16 a v => Sys2Proof.Machine.execPoke16 a v s
  | .move16 src dst => Sys2Proof.Machine.execMove16 src dst s
  | .jmp16 a => Sys2Proof.Machine.execJmp16 a s
  | .jz16 a c => Sys2Proof.Machine.execJz16 a c s
  | .run16 a => Sys2Proof.Machine.execRun16 a s
  | .reserved1F => Sys2Proof.Machine.execReserved1F s
  | .reserved20 op => Sys2Proof.Machine.execReserved20 op s
  | .reserved30 op => Sys2Proof.Machine.execReserved30 op s
  | .reserved34 op => Sys2Proof.Machine.execReserved34 op s
  | .reserved36 => Sys2Proof.Machine.execReserved36 s
  | .unassigned37 => Sys2Proof.Machine.execUnassigned37 s
  | .unassigned38 op => Sys2Proof.Machine.execUnassigned38 op s
  | .unassigned40 op => Sys2Proof.Machine.execUnassigned40 op s
  | .unassigned80 op => Sys2Proof.Machine.execUnassigned80 op s

end Sys2Proof.Machine
end

