-- ==== Sys2Proof/Machine/HostPort.lean ====
section
/-! DEFINITION. The host's transactions (10_state.md R36 to R43; 70_reset_and_hazards.md R270 to R276) and the register view
of a fault kind (60_exceptions.md R231). None of them is a step. -/

namespace Sys2Proof.Machine

/-- Reset, accepted in any run state (R37): every element at its reset value and the streams at their start; the host's IN
stays what the host fixed, from its first byte. -/
def State.hostReset (s : State) : State :=
  { State.reset with input := { s.input with pos := 0 } }

/-- Load (R38): byte i of the image goes to address i, bytes from index 65536 on are discarded without error. -/
def State.load (image : List Byte) (s : State) : Host.Outcome State Fault Refusal :=
  if s.runState = .idle then .next { s with mem := s.mem.writeBytes 0 image } else .refused .loadOutsideIdle

/-- Run (R42): accepted only in Idle, so a second run needs a reset. -/
def State.run (start : Addr16) (s : State) : Host.Outcome State Fault Refusal :=
  if s.runState = .idle then .next { s with pc := start.setWidth 32, runState := .running }
  else .refused .runOutsideIdle

/-- The host fixes the whole input sequence before the run (R40, R275). -/
def State.setInput (bytes : List Byte) (s : State) : Host.Outcome State Fault Refusal :=
  if s.runState = .idle then .next { s with input := { bytes := bytes, pos := 0, ended := true } }
  else .refused .inputOutsideIdle

/-- The host opens an input whose bytes arrive over time (the timed reading of R102). -/
def State.openInput (s : State) : Host.Outcome State Fault Refusal :=
  if s.runState = .idle then .next { s with input := { bytes := [], pos := 0, ended := false } }
  else .refused .inputOutsideIdle

/-- The host supplies one more byte (R102). -/
def State.supplyByte (b : Byte) (s : State) : Host.Outcome State Fault Refusal :=
  if s.input.ended then .refused .inputEnded
  else .next { s with input := { s.input with bytes := s.input.bytes ++ [b] } }

/-- The host signals end of input, for good (R40, R102). -/
def State.endInput (s : State) : Host.Outcome State Fault Refusal :=
  if s.input.ended then .refused .inputEnded
  else .next { s with input := { s.input with ended := true } }

/-- What the host reads after a run (R41). -/
structure OutcomeRecord where
  runState : RunState
  fkind : Option FaultKind
  /-- Absent after a normal halt, where it is not meaningful. -/
  fpc : Option Pc
  icount : BitVec 32
  of : Bool
  sp : Fin 65
  deriving DecidableEq, Repr

/-- The outcome record, readable in a Halted state only (R41). -/
def State.outcome (s : State) : Option OutcomeRecord :=
  match s.runState with
  | .idle => none
  | .running => none
  | .haltedNormal => some ⟨s.runState, none, none, s.icount, s.of, s.sp⟩
  | .haltedFault k => some ⟨s.runState, some k, some s.fpc, s.icount, s.of, s.sp⟩

/-- The numeric code of a fault kind (R231; the spec's decision D9). -/
def faultCode : FaultKind → BitVec 4
  | .ipOutOfBounds => 1
  | .truncatedInstruction => 2
  | .stackOverflow => 3
  | .stackUnderflow => 4
  | .invalidAddress => 5
  | .divisionByZero => 6
  | .retWithEmptyStack => 7
  | .unknownOpcode => 8
  | .instructionLimitExceeded => 9

/-- FKIND as the 4-bit register, 0 for None (R28, R231). -/
def State.fkindCode (s : State) : BitVec 4 :=
  match s.fkind with
  | none => 0
  | some k => faultCode k

end Sys2Proof.Machine
end

