-- ==== Sys2Proof/Machine/Phases.lean ====
section
/-! DEFINITION. The phases of a step (40_engine_step.md R100 to R105, R114 to R117; 60_exceptions.md R243), over whatever
executes an instruction. Step.lean gives them `exec`. -/

namespace Sys2Proof.Machine

/-- P3 and P6: the opcode byte and the operand bytes at pc, `w` bytes in all (R101, R105). -/
def State.latch (s : State) (w : Nat) : List Byte := (List.range w).map (fun k => s.mem.read (s.pc.toNat + k))

/-- P3 to P6: fetch, lookup, width check, latch (R101, R103 to R105, R116, R117). The two inner rejections never come: the
table matches every byte (R79), and a latch of W bytes is as long as the decoder asks. -/
def State.fetchInstr (s : State) : Except FaultKind Instr :=
  match lookupOpcode (s.mem.read s.pc.toNat) with
  | none => .error .unknownOpcode
  | some op =>
    if hasOperands s.pc.toNat op.width then
      match decode (s.latch op.width) with
      | .ok (i, _) => .ok i
      | .error _ => .error .truncatedInstruction
    else .error .truncatedInstruction

/-- The one hold, InputWait: a GETC does not begin while the environment can answer neither with a byte nor with end of
input; no other instruction can be held (R102). -/
def State.holds (s : State) (i : Instr) : Bool := decide (i.opcode = .getc) && !s.inputReady

/-- P1 to P8 in RUNSTATE = Running. P1 counts every step, a faulting one too; a held step changes nothing, not even ICOUNT
(R101, R102, R114, R115). -/
def runPhases (instrLimit : Nat) (execute : Instr → State → Host.Outcome State Fault Refusal) (s : State) :
    Host.Outcome State Fault Refusal :=
  if s.icount.toNat + 1 > instrLimit then raiseFault .instructionLimitExceeded s.count
  else if s.pc.toNat ≥ Config.memorySize then raiseFault .ipOutOfBounds s.count
  else
    match s.fetchInstr with
    | .error k => raiseFault k s.count
    | .ok i => if s.holds i then .next s else execute i s.count

/-- One step for a given INSTR_LIMIT. Outside Running no step is enabled (R102, R120). -/
def stepWithin (instrLimit : Nat) (execute : Instr → State → Host.Outcome State Fault Refusal) (s : State) :
    Host.Outcome State Fault Refusal :=
  match s.runState with
  | .idle => .fault .idle
  | .running => runPhases instrLimit execute s
  | .haltedNormal => .fault .halted
  | .haltedFault _ => .fault .halted

end Sys2Proof.Machine
end

