-- ==== Sys2Proof/Machine/Step.lean ====
section
/-! DEFINITION. The step of the machine (40_engine_step.md R101) and the placing of one table word where it fetches next. -/

namespace Sys2Proof.Machine

/-- One step at this hardware's INSTR_LIMIT. -/
def step (s : State) : Host.Outcome State Fault Refusal := stepWithin Config.instrLimit exec s

/-- `s` with a table word's instruction at pc and the run started: what the host's load and run do from Idle (R38, R42;
log 1). Bytes that would lie at MEMORY_SIZE and above are discarded. -/
def State.withFetchWord (s : State) (nbits w : Nat) : State :=
  { s with mem := s.mem.writeBytes s.pc.toNat (tableInstrBytes nbits w), runState := .running }

end Sys2Proof.Machine
end

