-- ==== Sys2Proof/Safety.lean ====
section
/-! DEFINITION. The words that claims use: frames, a fault taken, the bounds of 00_scope.md R8, the fault table read off the
raw bytes, the select of the program-counter multiplexer, and agreement up to what no rule reads. -/

namespace Sys2Proof.Machine

/-! ## Values and frames -/

/-- The unsigned value of a low-page cell (R77, R180). -/
abbrev State.cell (s : State) (a : Addr8) : Nat := (s.mem.read (ea8 a).toNat).toNat

/-- Every cell reads as before. -/
def KeepsMemory (s t : State) : Prop := ∀ x : Nat, t.mem.read x = s.mem.read x

/-- Every cell outside the one stored to reads as before. -/
def KeepsMemoryExcept (s t : State) (a : Addr16) : Prop := ∀ x : Nat, x ≠ a.toNat → t.mem.read x = s.mem.read x

/-- STK and SP are unchanged. -/
def KeepsStack (s t : State) : Prop := t.stk = s.stk ∧ t.sp = s.sp

/-- OUT, IN and INPOS are unchanged. -/
def KeepsStreams (s t : State) : Prop := t.out = s.out ∧ t.input = s.input

/-- ICOUNT, RUNSTATE, FKIND and FPC are unchanged; in particular no fault is taken and the run does not end. -/
def KeepsRunRecord (s t : State) : Prop :=
  t.icount = s.icount ∧ t.runState = s.runState ∧ t.fkind = s.fkind ∧ t.fpc = s.fpc

/-- pc is the old pc plus `w`, on the 32-bit register. -/
def AdvancesBy (s t : State) (w : Nat) : Prop := t.pc = BitVec.ofNat 32 (s.pc.toNat + w)

/-- OF, the call stack, the streams and the run record are unchanged: everything but memory and pc. -/
def KeepsRest (s t : State) : Prop := t.of = s.of ∧ KeepsStack s t ∧ KeepsStreams s t ∧ KeepsRunRecord s t

/-- `i` completes at `s`: it answers a next state in which the cell at `d` holds a byte as `result` says, every other cell
reads as before, pc has moved on by `w`, and nothing else has changed. -/
def CompletesStoring (i : Instr) (s : State) (d : Addr16) (w : Nat) (result : Byte → Prop) : Prop :=
  ∃ t, exec i s = .next t ∧ result (t.mem.read d.toNat) ∧ KeepsMemoryExcept s t d ∧ AdvancesBy s t w ∧ KeepsRest s t

/-- As `CompletesStoring`, but OF becomes `flag`. -/
def CompletesStoringFlag (i : Instr) (s : State) (d : Addr16) (w : Nat) (result : Byte → Prop) (flag : Bool) : Prop :=
  ∃ t, exec i s = .next t ∧ result (t.mem.read d.toNat) ∧ t.of = flag ∧ KeepsMemoryExcept s t d ∧ AdvancesBy s t w ∧
    KeepsStack s t ∧ KeepsStreams s t ∧ KeepsRunRecord s t

/-- `i` completes at `s` with nothing changed but pc, which becomes `pc'`. -/
def CompletesAt (i : Instr) (s : State) (pc' : Nat) : Prop :=
  ∃ t, exec i s = .next t ∧ t.pc = BitVec.ofNat 32 pc' ∧ KeepsMemory s t ∧ KeepsRest s t

/-- Fault `k` is taken at `s` (R240): the three record elements are set, and nothing else changes. -/
structure FaultTaken (s t : State) (k : FaultKind) : Prop where
  runState : t.runState = .haltedFault k
  fkind : t.fkind = some k
  fpc : t.fpc = s.pc
  pc : t.pc = s.pc
  memory : t.mem = s.mem
  stack : KeepsStack s t
  flag : t.of = s.of
  counter : t.icount = s.icount
  streams : KeepsStreams s t

/-- An outcome that is a next state in which fault `k` has been taken at `s`. -/
def TakesFault (o : Host.Outcome State Fault Refusal) (s : State) (k : FaultKind) : Prop :=
  ∃ t, o = .next t ∧ FaultTaken s t k

/-- A call completes: the return address `ret` is pushed, pc becomes `target`, nothing else changes (R162, R215). -/
def CompletesCall (i : Instr) (s : State) (ret target : Nat) : Prop :=
  ∃ (h : s.sp.val < 64) (t : State), exec i s = .next t ∧ t.pc.toNat = target ∧ t.sp.val = s.sp.val + 1 ∧
    (t.stk[s.sp.val]'h).toNat = ret ∧ (∀ (k : Nat) (hk : k < 64), k ≠ s.sp.val → t.stk[k] = s.stk[k]) ∧
    KeepsMemory s t ∧ t.of = s.of ∧ KeepsStreams s t ∧ KeepsRunRecord s t

/-- A return completes: the most recent entry is popped into pc, SP falls by one, no slot and nothing else changes (R111,
R163, R164). -/
def CompletesReturn (i : Instr) (s : State) : Prop :=
  ∃ (h : s.sp.val - 1 < 64) (t : State), exec i s = .next t ∧ t.pc.toNat = (s.stk[s.sp.val - 1]'h).toNat ∧
    t.sp.val + 1 = s.sp.val ∧ t.stk = s.stk ∧ KeepsMemory s t ∧ t.of = s.of ∧ KeepsStreams s t ∧ KeepsRunRecord s t

/-- The cell an instruction's one data write goes to, if it makes one (R66). -/
def storeAddr : Instr → Option Addr16
  | .poke a _ => some (ea8 a)
  | .move _ dst => some (ea8 dst)
  | .not a => some (ea8 a)
  | .nand _ _ d => some (ea8 d)
  | .and _ _ d => some (ea8 d)
  | .or _ _ d => some (ea8 d)
  | .xor _ _ d => some (ea8 d)
  | .inc a => some (ea8 a)
  | .dec a => some (ea8 a)
  | .cmp _ _ d => some (ea8 d)
  | .getc a => some (ea8 a)
  | .add _ _ d => some (ea8 d)
  | .sub _ _ d => some (ea8 d)
  | .mul _ _ d => some (ea8 d)
  | .div _ _ d => some (ea8 d)
  | .shl _ _ d => some (ea8 d)
  | .shr _ _ d => some (ea8 d)
  | .poke16 a _ => some a
  | .move16 _ dst => some dst
  | .nop | .jmp _ | .jz _ _ | .run _ | .halt | .comment _ | .putc _ | .putn _ | .ret => none
  | .jmp16 _ | .jz16 _ _ | .run16 _ => none
  | .reserved1F | .reserved20 _ | .reserved30 _ | .reserved34 _ | .reserved36 => none
  | .unassigned37 | .unassigned38 _ | .unassigned40 _ | .unassigned80 _ => none

/-! ## The bounds of every reachable state -/

/-- A terminal state (R13): Halted(Normal) or Halted(Fault k). -/
def State.halted (s : State) : Prop := s.runState = .haltedNormal ∨ ∃ k, s.runState = .haltedFault k

/-- A run that has not ended in a fault. -/
def State.safe (s : State) : Prop := ∀ k, s.runState ≠ .haltedFault k

/-- The bounds of R8, R112 and R119, the fault record of R28, R29 and R240, and the canonical form of memory. -/
structure State.Inv (s : State) : Prop where
  memory : s.mem.wf
  pcBound : s.pc.toNat ≤ Config.memorySize
  counterBound : s.icount.toNat ≤ Config.instrLimit + 1
  /-- ICOUNT is above the ceiling exactly in Halted(Fault InstructionLimitExceeded) (R24). -/
  counterOver : s.icount.toNat = Config.instrLimit + 1 ↔ s.runState = .haltedFault .instructionLimitExceeded
  /-- FKIND names the fault exactly in Halted(Fault k) (R28). -/
  faultRecord : ∀ k, s.runState = .haltedFault k ↔ s.fkind = some k
  /-- FPC = pc in every Halted(Fault k) state (R29). -/
  faultPc : ∀ k, s.runState = .haltedFault k → s.fpc = s.pc
  /-- pc is outside memory at a fault exactly when the fault is IpOutOfBounds, or the watchdog stopped the step first. -/
  outOfBounds : ∀ k, s.runState = .haltedFault k → s.pc.toNat = Config.memorySize →
    k = .ipOutOfBounds ∨ k = .instructionLimitExceeded
  /-- A normal halt leaves an empty stack (R163). -/
  normalHalt : s.runState = .haltedNormal → s.sp.val = 0
  /-- No step raises StackUnderflow (R238). -/
  noUnderflow : s.runState ≠ .haltedFault .stackUnderflow
  inputBound : s.input.pos ≤ s.input.bytes.length
  /-- Before the run nothing has been counted or pushed (R35). -/
  idleFresh : s.runState = .idle → s.icount = 0 ∧ s.sp.val = 0

/-! ## The fault table, from the raw bytes -/

/-- The widths of R72 by opcode byte, 0x00 to 0x1E. -/
def widthByOpcodeByte : List Nat :=
  [1, 3, 3, 2, 4, 2, 3, 2] ++ [1, 4, 4, 4, 2, 2, 4, 2] ++ [2, 2, 2, 1, 4, 4, 4, 4] ++ [4, 4, 4, 5, 3, 4, 3]

/-- The fault of phases P4 to P7 by the conditions of R231 in the order of R243, from plain numbers: pc, SP, the opcode
byte, the byte after it (COMMENT's len), and the byte in the cell that the byte at pc + 2 names (DIV's divisor). At
ADDR_LIMIT = 65536 no operand address is invalid (R106). -/
def faultFor (pc sp op len divisor : Nat) : Option FaultKind :=
  if op > 0x1E then some .unknownOpcode
  else if pc + widthByOpcodeByte.getD op 0 > 65536 then some .truncatedInstruction
  else if op = 0x07 ∧ pc + 2 ≥ 65536 then some .invalidAddress
  else if op = 0x1E ∧ pc + 3 ≥ 65536 then some .invalidAddress
  else if (op = 0x07 ∨ op = 0x1E) ∧ sp = 64 then some .stackOverflow
  else if op = 0x0F ∧ pc + 2 + len > 65536 then some .truncatedInstruction
  else if op = 0x17 ∧ divisor = 0 then some .divisionByZero
  else if op = 0x13 ∧ sp = 0 then some .retWithEmptyStack
  else none

/-- The fault the step at `s` has to report, the watchdog first and the pc check second (R243), and none where it completes.
-/
def State.faultDue (s : State) : Option FaultKind :=
  if s.icount.toNat + 1 > Config.instrLimit then some .instructionLimitExceeded
  else if s.pc.toNat ≥ 65536 then some .ipOutOfBounds
  else
    faultFor s.pc.toNat s.sp.val (s.mem.read s.pc.toNat).toNat (s.mem.read (s.pc.toNat + 1)).toNat
      (s.mem.read (s.mem.read (s.pc.toNat + 2)).toNat).toNat

/-! ## The select of the program-counter multiplexer -/

/-- The most recent entry of the call stack, STK[SP-1] (R26); consulted only for SP > 0. -/
def State.topEntry (s : State) : Addr16 := s.stk.toList.getD (s.sp.val - 1) 0

/-- The source R118 selects when the instruction completes. -/
def pcSelect (s : State) : Instr → PcSource
  | .jmp a => .abs8 a
  | .run a => .abs8 a
  | .jz a c => if s.cell c = 0 then .abs8 a else .seq 3
  | .jmp16 a => .abs16 a
  | .run16 a => .abs16 a
  | .jz16 a c => if s.cell c = 0 then .abs16 a else .seq 4
  | .comment len => .skip len
  | .ret => .pop s.topEntry
  | .halt => if s.sp.val > 0 then .pop s.topEntry else .hold
  | .nop => .seq 1
  | .not _ | .inc _ | .dec _ | .putc _ | .putn _ | .getc _ => .seq 2
  | .poke _ _ | .move _ _ => .seq 3
  | .nand _ _ _ | .and _ _ _ | .or _ _ _ | .xor _ _ _ | .cmp _ _ _ | .shl _ _ _ | .shr _ _ _ => .seq 4
  | .add _ _ _ | .sub _ _ _ | .mul _ _ _ | .div _ _ _ | .poke16 _ _ => .seq 4
  | .move16 _ _ => .seq 5
  | .reserved1F | .reserved20 _ | .reserved30 _ | .reserved34 _ | .reserved36 => .hold
  | .unassigned37 | .unassigned38 _ | .unassigned40 _ | .unassigned80 _ => .hold

/-! ## Agreement up to what no rule reads -/

/-- Equal but for call-stack slots at index SP and above (R26). -/
structure AgreeOnLive (s t : State) : Prop where
  mem : s.mem = t.mem
  sp : s.sp = t.sp
  live : ∀ (k : Nat) (h : k < 64), k < s.sp.val → s.stk[k] = t.stk[k]
  pc : s.pc = t.pc
  flag : s.of = t.of
  icount : s.icount = t.icount
  runState : s.runState = t.runState
  fkind : s.fkind = t.fkind
  fpc : s.fpc = t.fpc
  out : s.out = t.out
  input : s.input = t.input

/-- Two outcomes of the same kind: next states related by `R`, or stops for the same reason. -/
def OutcomesRelated (R : State → State → Prop) :
    Host.Outcome State Fault Refusal → Host.Outcome State Fault Refusal → Prop
  | .next s, .next t => R s t
  | .fault a, .fault b => a = b
  | .refused a, .refused b => a = b
  | .next _, .fault _ => False
  | .next _, .refused _ => False
  | .fault _, .next _ => False
  | .fault _, .refused _ => False
  | .refused _, .next _ => False
  | .refused _, .fault _ => False

/-- The two states, one the other with another flag, that a claim "no instruction reads OF" compares (R23). -/
def AgreeButFlag (s t : State) : Prop := t = s.setOf t.of

end Sys2Proof.Machine
end

