-- ==== Sys2Proof/Certificates/Slice0/Obligations.lean ====
section
/-! DEFINITION. The statements for the provers, one `def Obligations.<Name> : Prop` each, in the order of OBLIGATIONS.json.
"The model's choice" in a docstring names a log entry of notes/assumptions; "the spec's decision" names a row of
spec/92_eei_decisions.md. -/

open Sys2Proof Sys2Proof.Machine

/-! ## Encoding -/

/-- R79: the 31 instruction rows have mask 0xFF and are selected by exactly the bytes 0x00 to 0x1E, nine further rows tile
the rest, the 40 rows match every opcode byte exactly once, and the decoder looks at B0 only to choose the instruction. -/
def Obligations.OpcodeTableTilesAllBytes : Prop :=
  instructionRows.length = Config.numOpcodes ∧ (∀ r ∈ instructionRows, r.mask = 0xFF) ∧
  nonInstructionRows.length = 9 ∧
  (∀ b : Byte, (∃ r ∈ instructionRows, r.selects b = true) ↔ b.toNat ≤ 0x1E) ∧
  (∀ b : Byte, (opcodeTable.filter (fun r => r.selects b)).length = 1) ∧
  (∀ (b0 : Byte) (bs rest : List Byte) (i : Instr), decode (b0 :: bs) = .ok (i, rest) →
    lookupOpcode b0 = some i.opcode)

/-- One word per family, written out from R72, R74 to R76 and R78, decodes to the instruction it stands for. The opcode
values and operand orders are the spec's decisions D1, D2 and D3. -/
def Obligations.SampleWordsDecode : Prop :=
  decode [0b00000001, 0b00000000, 0b01000001] = .ok (.poke 0x00 0x41, []) ∧
  decode [0b00000010, 0b00100000, 0b00100001] = .ok (.move 0x20 0x21, []) ∧
  decode [0b00011001, 0b00010000, 0b00010001, 0b00010010] = .ok (.shr 0x10 0x11 0x12, []) ∧
  decode [0b00000110, 0b00001100, 0b10000000] = .ok (.jz 0x0C 0x80, []) ∧
  decode [0b00010101, 0b10000000, 0b10000001, 0b10000011] = .ok (.sub 0x80 0x81 0x83, []) ∧
  decode [0b00010010, 0b10000000] = .ok (.getc 0x80, []) ∧
  decode [0b00011101, 0b00000001, 0b00000000, 0b10010000] = .ok (.jz16 0x0100 0x90, []) ∧
  decode [0b00011011, 0b00010010, 0b00110100, 0b00000010, 0b00000000] = .ok (.move16 0x1234 0x0200, [])

/-- Decoding the encoding of any well-formed instruction, with any bytes after it, gives that instruction and those bytes:
no bit of an encoding is dropped. -/
def Obligations.EncodeThenDecode : Prop :=
  ∀ (i : Instr) (rest : List Byte), i.wellFormed = true → decode (encode i ++ rest) = .ok (i, rest)

/-- Whatever decodes is the encoding of the well-formed instruction it decodes to, followed by the rest: each word has one
meaning. -/
def Obligations.DecodeThenEncode : Prop :=
  ∀ (bs rest : List Byte) (i : Instr), decode bs = .ok (i, rest) → i.wellFormed = true ∧ bs = encode i ++ rest

/-! ## The phases of a step -/

/-- R104: HasOperands on unbounded integers, and for n > 0 it says exactly that the bytes p to p+n-1 all have addresses at
most 65535. -/
def Obligations.HasOperandsMeansAllBytesInMemory : Prop :=
  ∀ p n : Nat, (hasOperands p n = true ↔ p < Config.memorySize ∧ p + n ≤ Config.memorySize) ∧
    (0 < n → (hasOperands p n = true ↔ ∀ k, k < n → p + k ≤ 65535))

/-- When the bytes at pc are the encoding of a well-formed instruction that lies inside memory, and neither the watchdog nor
the input wait stops the step, the step is exec of that instruction at the state with ICOUNT counted up. -/
def Obligations.StepRunsDecodedInstruction : Prop :=
  ∀ (s : State) (i : Instr), s.runState = .running → s.icount.toNat + 1 ≤ Config.instrLimit → i.wellFormed = true →
    s.pc.toNat + (encode i).length ≤ Config.memorySize →
    (∀ k (h : k < (encode i).length), s.mem.read (s.pc.toNat + k) = (encode i)[k]) →
    s.holds i = false →
    step s = exec i s.count

/-- The watchdog comes first: with ICOUNT at the ceiling the step reports InstructionLimitExceeded whatever pc and memory
hold. The order count, then compare is the spec's decision D8. -/
def Obligations.WatchdogStopsTheStep : Prop :=
  ∀ s : State, s.runState = .running → s.icount.toNat ≥ Config.instrLimit →
    TakesFault (step s) s.count .instructionLimitExceeded

/-- R115: at or above MEMORY_SIZE the step raises IpOutOfBounds with FPC = pc, whatever memory holds. In a state that meets
the invariant the only such value is 65536, and a running step reaches it only through an instruction that ends exactly at
the last byte of memory. -/
def Obligations.PcOutsideMemoryFaults : Prop :=
  (∀ s : State, s.runState = .running → s.icount.toNat + 1 ≤ Config.instrLimit → s.pc.toNat ≥ Config.memorySize →
    TakesFault (step s) s.count .ipOutOfBounds ∧ (s.Inv → s.pc.toNat = 65536)) ∧
  (∀ s t : State, step s = .next t → t.runState = .running → t.pc.toNat = 65536 →
    ∃ i, s.fetchInstr = .ok i ∧ s.pc.toNat + i.length = 65536)

/-- R116: a fetched byte above 0x1E raises UnknownOpcode with FPC = pc, wherever it lies, at 65535 too, and whatever the
bytes after it are. -/
def Obligations.OpcodeAboveTheTableFaults : Prop :=
  ∀ s : State, s.runState = .running → s.icount.toNat + 1 ≤ Config.instrLimit → s.pc.toNat < Config.memorySize →
    (s.mem.read s.pc.toNat).toNat > 0x1E → TakesFault (step s) s.count .unknownOpcode

/-- R117: below MEMORY_SIZE the width check fails exactly when pc + W > 65536, and then the step raises
TruncatedInstruction; W is that of R72's table; a width-1 instruction never fails it. -/
def Obligations.TruncatedInstructionFaults : Prop :=
  ∀ (s : State) (n : Nat), s.runState = .running → s.icount.toNat + 1 ≤ Config.instrLimit →
    s.pc.toNat < Config.memorySize → (s.mem.read s.pc.toNat).toNat = n → n ≤ 0x1E →
    (s.pc.toNat + widthByOpcodeByte.getD n 0 > 65536 → TakesFault (step s) s.count .truncatedInstruction) ∧
    (s.pc.toNat + widthByOpcodeByte.getD n 0 ≤ 65536 → ∃ i, s.fetchInstr = .ok i ∧
      i.opcode.width = widthByOpcodeByte.getD n 0) ∧
    (widthByOpcodeByte.getD n 0 = 1 → s.pc.toNat + widthByOpcodeByte.getD n 0 ≤ 65536)

/-- The hold InputWait: a GETC whose early phases pass does not begin while the environment has neither a byte nor end of
input, and nothing changes, not even ICOUNT; no other instruction is held. The spec's decision D17; that a held step
answers the same state is the model's choice (log 5). -/
def Obligations.InputWaitChangesNothing : Prop :=
  ∀ (s : State) (i : Instr), s.runState = .running → s.icount.toNat + 1 ≤ Config.instrLimit →
    s.pc.toNat < Config.memorySize → s.fetchInstr = .ok i →
    ((∃ a, i = .getc a) ∧ s.input.bytes.length ≤ s.input.pos ∧ s.input.ended = false → step s = .next s) ∧
    (¬ ((∃ a, i = .getc a) ∧ s.input.bytes.length ≤ s.input.pos ∧ s.input.ended = false) → step s = exec i s.count)

/-- No step is enabled outside Running: in Idle and in every Halted state the model stops by name (the stop is the model's
choice, log 6), and a step that answers a next state started in Running. In Running the model always answers a next state,
also where a GETC is held: there the spec has no step begin, and that the model answers one is its choice (log 5). -/
def Obligations.StepsOnlyWhileRunning : Prop :=
  ∀ s : State, (s.runState = .idle → step s = .fault .idle) ∧ (s.halted → step s = .fault .halted) ∧
    (∀ t, step s = .next t → s.runState = .running) ∧ (s.runState = .running → ∃ t, step s = .next t)

/-! ## Faults -/

/-- Faults are precise: a step that ends in Halted(Fault k) has counted the step, set RUNSTATE, FKIND and FPC, and changed
nothing else. The spec's decisions D10 and D11. -/
def Obligations.FaultsArePrecise : Prop :=
  ∀ (s t : State) (k : FaultKind), step s = .next t → t.runState = .haltedFault k → FaultTaken s.count t k

/-- A running step reports exactly the fault that the table of R231, read off the raw bytes in the order of R243, gives it,
and none where the table gives none. The spec's decisions D4 to D8. -/
def Obligations.FaultsExactlyWhenDue : Prop :=
  ∀ (s : State) (k : FaultKind), s.runState = .running →
    ((∃ t, step s = .next t ∧ t.runState = .haltedFault k) ↔ s.faultDue = some k)

/-- No step raises StackUnderflow, from any state. -/
def Obligations.StackUnderflowIsNeverRaised : Prop :=
  ∀ (s t : State), step s = .next t → t.runState ≠ .haltedFault .stackUnderflow

/-! ## Invariants -/

/-- The reset state meets the invariant. -/
def Obligations.ResetMeetsInvariant : Prop := State.reset.Inv

/-- Every step keeps the bounds of R8, the record of a fault, and the canonical form of memory. -/
def Obligations.StepKeepsInvariant : Prop :=
  ∀ s t : State, s.Inv → step s = .next t → t.Inv

/-- So does every host transaction the machine accepts. Its life cycle is the spec's decision D12; what is kept of IN on a
reset is the model's choice (log 15). -/
def Obligations.HostTransactionsKeepInvariant : Prop :=
  ∀ s : State, s.hostReset.Inv ∧
    (s.Inv → ∀ t,
      (∀ image, s.load image = .next t → t.Inv) ∧ (∀ start, s.run start = .next t → t.Inv) ∧
      (∀ bytes, s.setInput bytes = .next t → t.Inv) ∧ (s.openInput = .next t → t.Inv) ∧
      (∀ b, s.supplyByte b = .next t → t.Inv) ∧ (s.endInput = .next t → t.Inv))

/-! ## Rules of the whole machine -/

/-- R23: ADD, SUB and MUL overwrite OF on every execution, whatever it was; no other instruction writes it, no instruction
reads it, a faulting step does not change it, and the host reads it in the outcome record. -/
def Obligations.OverflowFlagIsWrittenByArithmeticOnly : Prop :=
  (∀ (a b d : Addr8) (s : State) (flag : Bool),
    exec (.add a b d) (s.setOf flag) = exec (.add a b d) s ∧ exec (.sub a b d) (s.setOf flag) = exec (.sub a b d) s ∧
    exec (.mul a b d) (s.setOf flag) = exec (.mul a b d) s) ∧
  (∀ (i : Instr) (s t : State), exec i s = .next t → i.opcode ≠ .add → i.opcode ≠ .sub → i.opcode ≠ .mul →
    t.of = s.of) ∧
  (∀ (i : Instr) (s : State) (flag : Bool), OutcomesRelated AgreeButFlag (exec i s) (exec i (s.setOf flag))) ∧
  (∀ (s t : State) (k : FaultKind), step s = .next t → t.runState = .haltedFault k → t.of = s.of) ∧
  (∀ (s : State) (r : OutcomeRecord), s.outcome = some r → r.of = s.of)

/-- Every step counts once, a faulting one too; the one exception is the input wait, which changes nothing. ICOUNT's width
and start are the spec's decision D8; that a held step answers the same state is the model's choice (log 5). -/
def Obligations.EveryStepCountsOnce : Prop :=
  ∀ s t : State, s.icount.toNat ≤ Config.instrLimit → step s = .next t →
    t.icount.toNat = s.icount.toNat + 1 ∨ (t = s ∧ ∃ a, s.fetchInstr = .ok (.getc a) ∧ s.inputReady = false)

/-- OUT only grows, and only by PUTC and PUTN; IN is never changed, and INPOS moves only by GETC and by at most one. The
spec's decisions D16 and D17. -/
def Obligations.StreamsMoveOnlyByInputOutput : Prop :=
  ∀ (i : Instr) (s t : State), exec i s = .next t →
    (∃ bs, t.out = s.out ++ bs) ∧ (i.opcode ≠ .putc → i.opcode ≠ .putn → t.out = s.out) ∧
    t.input.bytes = s.input.bytes ∧ t.input.ended = s.input.ended ∧
    s.input.pos ≤ t.input.pos ∧ t.input.pos ≤ s.input.pos + 1 ∧ (i.opcode ≠ .getc → t.input = s.input)

/-- An instruction changes no cell but the one its data write goes to, and only POKE16 and MOVE16 write above the low page.
-/
def Obligations.OnlyTheStoredCellChanges : Prop :=
  ∀ (i : Instr) (s t : State), exec i s = .next t →
    (∀ x : Nat, (∀ a, storeAddr i = some a → x ≠ a.toNat) → t.mem.read x = s.mem.read x) ∧
    (i.opcode ≠ .poke16 → i.opcode ≠ .move16 → ∀ x : Nat, 256 ≤ x → t.mem.read x = s.mem.read x)

/-- R25: SP is written by RUN and RUN16 (plus 1), by RET and HALT with a non-empty stack (minus 1), and by nothing else; a
push fills slot SP, the first free one, and no other slot ever changes; the host reads SP in the outcome record. -/
def Obligations.StackMovesOnlyByCallsAndReturns : Prop :=
  (∀ (i : Instr) (s t : State), exec i s = .next t →
    (i.opcode = .run ∨ i.opcode = .run16 →
      (t.sp.val = s.sp.val + 1 ∧ ∀ (k : Nat) (h : k < 64), k ≠ s.sp.val → t.stk[k] = s.stk[k]) ∨
      FaultTaken s t .invalidAddress ∨ FaultTaken s t .stackOverflow) ∧
    (i.opcode = .ret ∨ i.opcode = .halt → t.stk = s.stk ∧ (s.sp.val = 0 → t.sp = s.sp) ∧
      (s.sp.val ≠ 0 → t.sp.val + 1 = s.sp.val)) ∧
    (i.opcode ≠ .run → i.opcode ≠ .run16 → i.opcode ≠ .ret → i.opcode ≠ .halt → KeepsStack s t)) ∧
  (∀ s : State, s.sp.val ≤ Config.stackCapacity) ∧
  (∀ (s : State) (r : OutcomeRecord), s.outcome = some r → r.sp = s.sp)

/-- The next pc is the one source R118's table selects, unless the instruction takes a fault, or is a GETC whose input is
not there yet: then pc holds. HALT's hold is the spec's decision D11; that exec of a GETC that cannot be answered changes nothing is the
model's choice (log 5). -/
def Obligations.PcMultiplexerSelects : Prop :=
  ∀ (i : Instr) (s t : State), exec i s = .next t →
    t.pc = nextPc s.pc (pcSelect s i) ∨ (∃ k, FaultTaken s t k) ∨ (t = s ∧ i.opcode = .getc ∧ s.inputReady = false)

/-- The watchdog ends every run: from a running state within the ceiling whose input sequence is complete, at most
INSTR_LIMIT + 1 - ICOUNT steps lead to a terminal state. The spec's decisions D8 and D17. -/
def Obligations.EveryRunEndsWithinTheLimit : Prop :=
  ∀ s : State, s.runState = .running → s.icount.toNat ≤ Config.instrLimit → s.input.ended = true →
    ∃ (k : Nat) (t : State), k ≤ Config.instrLimit + 1 - s.icount.toNat ∧ core.run k s = .next t ∧ t.halted

/-- A run ends normally by a HALT with an empty stack and by nothing else, and pc then stays at that HALT (pc: the spec's
decision D11). -/
def Obligations.OnlyHaltOnEmptyStackEndsNormally : Prop :=
  ∀ s t : State, step s = .next t →
    (t.runState = .haltedNormal ↔
      (s.faultDue = none ∧ s.fetchInstr = .ok .halt ∧ s.sp.val = 0)) ∧
    (t.runState = .haltedNormal → t = s.count.halt)

/-- What lies in call-stack slots at SP and above is unobservable: two states that agree on everything else step to states
that agree on everything else, or stop alike. The spec's decision D19. -/
def Obligations.DeadSlotsAreUnobservable : Prop :=
  ∀ s t : State, AgreeOnLive s t → OutcomesRelated AgreeOnLive (step s) (step t)

/-! ## Memory and call stack -/

/-- Two canonical memories that read alike at every address are equal data. It is a law of the model's own data: the
canonical form, a list of the cells that are not 0x00 in rising order of address, is the model's choice (log 24). -/
def Obligations.CanonicalMemoriesThatReadAlikeAreEqual : Prop :=
  ∀ m n : Memory, m.wf → n.wf → (∀ a : Nat, m.read a = n.read a) → m = n

/-- R110 and R111: Push stores at STK[SP] and raises SP, or reports overflow exactly at 64 entries; Pop lowers SP and
returns STK[SP-1], or reports underflow exactly at 0; a failure changes nothing, the vacated slot keeps its content, and
Pop returns what was pushed last. -/
def Obligations.PushAndPopAreLastInFirstOut : Prop :=
  ∀ (s : State) (v : Addr16),
    (s.push v = none ↔ s.sp.val = Config.stackCapacity) ∧ (s.pop = none ↔ s.sp.val = 0) ∧
    (∀ t, s.push v = some t →
      t.sp.val = s.sp.val + 1 ∧ (∀ h : s.sp.val < 64, t.stk[s.sp.val] = v) ∧
      (∀ (k : Nat) (h : k < 64), k ≠ s.sp.val → t.stk[k] = s.stk[k]) ∧
      t = { s with stk := t.stk, sp := t.sp } ∧ t.pop = some (v, { t with sp := s.sp })) ∧
    (∀ w t, s.pop = some (w, t) →
      t.sp.val + 1 = s.sp.val ∧ (∀ h : t.sp.val < 64, w = s.stk[t.sp.val]) ∧ t = { s with sp := t.sp })

/-! ## Data movement -/

/-- NOP completes in every state, and only pc advances. -/
def Obligations.NopOnlyAdvances : Prop := ∀ s : State, CompletesAt .nop s (s.pc.toNat + 1)

/-- POKE and POKE16 complete in every state and store their literal; widths 3 and 4. -/
def Obligations.PokeStoresTheLiteral : Prop :=
  (∀ (a : Addr8) (v : Byte) (s : State), CompletesStoring (.poke a v) s (ea8 a) 3 (fun r => r = v)) ∧
  (∀ (a : Addr16) (v : Byte) (s : State), CompletesStoring (.poke16 a v) s a 4 (fun r => r = v))

/-- MOVE and MOVE16 complete in every state and copy one byte, source first; widths 3 and 5. -/
def Obligations.MoveCopiesTheByte : Prop :=
  (∀ (src dst : Addr8) (s : State),
    CompletesStoring (.move src dst) s (ea8 dst) 3 (fun r => r = s.mem.read (ea8 src).toNat)) ∧
  (∀ (src dst : Addr16) (s : State),
    CompletesStoring (.move16 src dst) s dst 5 (fun r => r = s.mem.read src.toNat))

/-- COMMENT skips 2 + len bytes where the whole instruction lies in memory and takes TruncatedInstruction where it does
not, payload bytes unread. The fault kind and the accepted boundary are the spec's decision D6. -/
def Obligations.CommentSkipsItsPayload : Prop :=
  ∀ (len : Byte) (s : State), s.pc.toNat < Config.memorySize →
    (s.pc.toNat + 2 + len.toNat ≤ 65536 → CompletesAt (.comment len) s (s.pc.toNat + 2 + len.toNat)) ∧
    (s.pc.toNat + 2 + len.toNat > 65536 → TakesFault (exec (.comment len) s) s .truncatedInstruction)

/-! ## Logic, compare, shifts -/

/-- NOT completes in every state and stores 255 - x over the cell. -/
def Obligations.NotComplementsTheCell : Prop :=
  ∀ (a : Addr8) (s : State), CompletesStoring (.not a) s (ea8 a) 2 (fun r => r.toNat = 255 - s.cell a)

/-- AND, OR, XOR and NAND complete in every state and store their result bit by bit, from the sources as they were before
the write, aliased or not. -/
def Obligations.BitwiseFormsStoreTheirBits : Prop :=
  ∀ (a b d : Addr8) (s : State),
    let x := s.mem.read (ea8 a).toNat
    let y := s.mem.read (ea8 b).toNat
    CompletesStoring (.and a b d) s (ea8 d) 4 (fun r => ∀ k, k < 8 → r.getLsbD k = (x.getLsbD k && y.getLsbD k)) ∧
    CompletesStoring (.or a b d) s (ea8 d) 4 (fun r => ∀ k, k < 8 → r.getLsbD k = (x.getLsbD k || y.getLsbD k)) ∧
    CompletesStoring (.xor a b d) s (ea8 d) 4 (fun r => ∀ k, k < 8 → r.getLsbD k = (x.getLsbD k ^^ y.getLsbD k)) ∧
    CompletesStoring (.nand a b d) s (ea8 d) 4 (fun r => ∀ k, k < 8 → r.getLsbD k = !(x.getLsbD k && y.getLsbD k))

/-- CMP completes in every state and stores 1 for equal bytes and 0 otherwise. -/
def Obligations.CmpStoresEquality : Prop :=
  ∀ (a b d : Addr8) (s : State),
    CompletesStoring (.cmp a b d) s (ea8 d) 4 (fun r => r.toNat = if s.cell a = s.cell b then 1 else 0)

/-- SHL and SHR complete in every state and shift by the stored count modulo 8, zeros entering; SHR is logical (the spec's
decision D14). -/
def Obligations.ShiftsUseTheCountModuloEight : Prop :=
  ∀ (a b d : Addr8) (s : State),
    CompletesStoring (.shl a b d) s (ea8 d) 4 (fun r => r.toNat = s.cell a * 2 ^ (s.cell b % 8) % 256) ∧
    CompletesStoring (.shr a b d) s (ea8 d) 4 (fun r => r.toNat = s.cell a / 2 ^ (s.cell b % 8))

/-! ## Arithmetic -/

/-- INC and DEC complete in every state, wrap modulo 256 and leave OF alone. -/
def Obligations.IncAndDecWrapWithoutFlag : Prop :=
  ∀ (a : Addr8) (s : State),
    CompletesStoring (.inc a) s (ea8 a) 2 (fun r => r.toNat = (s.cell a + 1) % 256) ∧
    CompletesStoring (.dec a) s (ea8 a) 2 (fun r => r.toNat = (s.cell a + 255) % 256)

/-- ADD completes in every state: the sum modulo 256, OF = 1 exactly when the sum is above 255. -/
def Obligations.AddStoresSumAndCarry : Prop :=
  ∀ (a b d : Addr8) (s : State),
    CompletesStoringFlag (.add a b d) s (ea8 d) 4 (fun r => r.toNat = (s.cell a + s.cell b) % 256)
      (decide (s.cell a + s.cell b > 255))

/-- SUB completes in every state: the first operand minus the second modulo 256, OF = 1 exactly on a borrow. -/
def Obligations.SubStoresDifferenceAndBorrow : Prop :=
  ∀ (a b d : Addr8) (s : State),
    CompletesStoringFlag (.sub a b d) s (ea8 d) 4
      (fun r => (r.toNat : Int) = ((s.cell a : Int) - (s.cell b : Int)) % 256) (decide (s.cell a < s.cell b))

/-- MUL completes in every state: the product modulo 256, OF = 1 exactly when the full product is above 255 (the spec's
decision D27). -/
def Obligations.MulStoresProductAndExcess : Prop :=
  ∀ (a b d : Addr8) (s : State),
    CompletesStoringFlag (.mul a b d) s (ea8 d) 4 (fun r => r.toNat = s.cell a * s.cell b % 256)
      (decide (s.cell a * s.cell b > 255))

/-- DIV completes exactly where the divisor byte is not 0 and stores the floor of the unsigned quotient (the spec's decision
D14) without touching OF; with divisor 0 it takes DivisionByZero and writes nothing, whatever the dividend. -/
def Obligations.DivStoresQuotientOrFaults : Prop :=
  ∀ (a b d : Addr8) (s : State),
    (s.cell b ≠ 0 →
      CompletesStoring (.div a b d) s (ea8 d) 4
        (fun r => r.toNat * s.cell b ≤ s.cell a ∧ s.cell a < (r.toNat + 1) * s.cell b)) ∧
    (s.cell b = 0 → TakesFault (exec (.div a b d) s) s .divisionByZero)

/-! ## Control flow -/

/-- JMP and JMP16 complete in every state and set pc to their absolute target, 0xFFFF too (the spec's decision D4). -/
def Obligations.JumpsTakeTheirTarget : Prop :=
  (∀ (a : Addr8) (s : State), CompletesAt (.jmp a) s a.toNat) ∧
  (∀ (a : Addr16) (s : State), CompletesAt (.jmp16 a) s a.toNat)

/-- JZ and JZ16 complete in every state: to the target when the whole condition byte is zero, else on by their own width, 3
and 4. JZ16's operand sizes are the spec's decision D3. -/
def Obligations.ConditionalJumpsTestTheCell : Prop :=
  (∀ (a c : Addr8) (s : State), CompletesAt (.jz a c) s (if s.cell c = 0 then a.toNat else s.pc.toNat + 3)) ∧
  (∀ (a : Addr16) (c : Addr8) (s : State),
    CompletesAt (.jz16 a c) s (if s.cell c = 0 then a.toNat else s.pc.toNat + 4))

/-- RUN and RUN16 complete where the return address fits an entry and the stack has room: the address after the call is
pushed and pc goes to the target. -/
def Obligations.CallsPushTheReturnAddress : Prop :=
  (∀ (a : Addr8) (s : State), s.pc.toNat + 2 < Config.memorySize → s.sp.val < Config.stackCapacity →
    CompletesCall (.run a) s (s.pc.toNat + 2) a.toNat) ∧
  (∀ (a : Addr16) (s : State), s.pc.toNat + 3 < Config.memorySize → s.sp.val < Config.stackCapacity →
    CompletesCall (.run16 a) s (s.pc.toNat + 3) a.toNat)

/-- Where they do not complete: a return address of MEMORY_SIZE or above takes InvalidAddress (the spec's decision D5),
before a full stack takes StackOverflow; nothing is pushed. -/
def Obligations.CallsFaultWithoutPushing : Prop :=
  (∀ (a : Addr8) (s : State),
    (s.pc.toNat + 2 ≥ Config.memorySize → TakesFault (exec (.run a) s) s .invalidAddress) ∧
    (s.pc.toNat + 2 < Config.memorySize → s.sp.val = Config.stackCapacity →
      TakesFault (exec (.run a) s) s .stackOverflow)) ∧
  (∀ (a : Addr16) (s : State),
    (s.pc.toNat + 3 ≥ Config.memorySize → TakesFault (exec (.run16 a) s) s .invalidAddress) ∧
    (s.pc.toNat + 3 < Config.memorySize → s.sp.val = Config.stackCapacity →
      TakesFault (exec (.run16 a) s) s .stackOverflow))

/-- RET and HALT complete with a non-empty stack: the most recent entry is popped into pc and the run goes on; the two do
the same. -/
def Obligations.ReturnsPopTheEntry : Prop :=
  ∀ s : State, s.sp.val > 0 → CompletesReturn .ret s ∧ CompletesReturn .halt s ∧ exec .halt s = exec .ret s

/-- HALT with an empty stack completes the run: Halted(Normal), with memory, OF, stack and streams as they were; pc stays at
the HALT (the spec's decision D11). -/
def Obligations.HaltOnEmptyStackEndsTheRun : Prop :=
  ∀ s : State, s.sp.val = 0 → ∃ t, exec .halt s = .next t ∧ t.runState = .haltedNormal ∧ t.pc = s.pc ∧
    KeepsMemory s t ∧ t.of = s.of ∧ KeepsStack s t ∧ KeepsStreams s t ∧ t.icount = s.icount ∧ t.fkind = s.fkind ∧
    t.fpc = s.fpc

/-- RET with an empty stack takes RetWithEmptyStack. -/
def Obligations.RetOnEmptyStackFaults : Prop :=
  ∀ s : State, s.sp.val = 0 → TakesFault (exec .ret s) s .retWithEmptyStack

/-- A call followed at once by a return, of any of the four pairings, comes back to the instruction after the call with the
stack depth, the live entries and everything else as before. -/
def Obligations.CallThenReturnComesBack : Prop :=
  ∀ (call back : Instr) (s : State), ((∃ a, call = .run a) ∨ ∃ a, call = .run16 a) → (back = .ret ∨ back = .halt) →
    s.pc.toNat + call.opcode.width < Config.memorySize → s.sp.val < Config.stackCapacity →
    ∃ t u, exec call s = .next t ∧ exec back t = .next u ∧
      AgreeOnLive { s with pc := BitVec.ofNat 32 (s.pc.toNat + call.opcode.width) } u

/-! ## Input and output -/

/-- PUTC completes in every state and appends the raw byte of the cell to OUT (the spec's decision D16). -/
def Obligations.PutcEmitsTheByte : Prop :=
  ∀ (a : Addr8) (s : State), ∃ t, exec (.putc a) s = .next t ∧ t.out = s.out ++ [s.mem.read (ea8 a).toNat] ∧
    t.input = s.input ∧ KeepsMemory s t ∧ AdvancesBy s t 2 ∧ t.of = s.of ∧ KeepsStack s t ∧ KeepsRunRecord s t

/-- PUTN completes in every state and appends one to three digits 0x30 to 0x39 whose decimal value is the unsigned byte,
with no leading zero (the spec's decisions D14 and D15). -/
def Obligations.PutnEmitsDecimalText : Prop :=
  ∀ (a : Addr8) (s : State), ∃ (t : State) (ds : List Byte), exec (.putn a) s = .next t ∧ t.out = s.out ++ ds ∧
    1 ≤ ds.length ∧ ds.length ≤ 3 ∧ (∀ b ∈ ds, 0x30 ≤ b.toNat ∧ b.toNat ≤ 0x39) ∧
    ds.foldl (fun n b => n * 10 + (b.toNat - 0x30)) 0 = s.cell a ∧ (ds.head? = some 0x30 → ds = [0x30]) ∧
    t.input = s.input ∧ KeepsMemory s t ∧ AdvancesBy s t 2 ∧ t.of = s.of ∧ KeepsStack s t ∧ KeepsRunRecord s t

/-- GETC completes whenever the environment can answer: the next byte of IN goes to the cell and INPOS moves by one, or at
the end of input 0 goes there and INPOS stays. The spec's decision D17. -/
def Obligations.GetcStoresTheNextByte : Prop :=
  ∀ (a : Addr8) (s : State),
    (∀ h : s.input.pos < s.input.bytes.length, ∃ t, exec (.getc a) s = .next t ∧
      t.mem.read (ea8 a).toNat = s.input.bytes[s.input.pos] ∧ t.input = { s.input with pos := s.input.pos + 1 } ∧
      t.out = s.out ∧ KeepsMemoryExcept s t (ea8 a) ∧ AdvancesBy s t 2 ∧ t.of = s.of ∧ KeepsStack s t ∧
      KeepsRunRecord s t) ∧
    (s.input.bytes.length ≤ s.input.pos → s.input.ended = true →
      CompletesStoring (.getc a) s (ea8 a) 2 (fun r => r = 0))

/-! ## 16-bit forms and unknown opcodes -/

/-- Under any ADDR_LIMIT, a 16-bit-address instruction with a decoded address at or above it takes InvalidAddress and does
nothing else: either address of MOVE16, JZ16 whether or not the branch would be taken, RUN16 whatever pc and SP. The spec's
decisions D4 and D24. -/
def Obligations.RejectedAddressChangesNothing : Prop :=
  ∀ (limit : Nat) (a b : Addr16) (v : Byte) (c : Addr8) (s : State), limit ≤ a.toNat →
    TakesFault (poke16Within limit a v s) s .invalidAddress ∧
    TakesFault (move16Within limit a b s) s .invalidAddress ∧
    TakesFault (move16Within limit b a s) s .invalidAddress ∧
    TakesFault (jmp16Within limit a s) s .invalidAddress ∧
    TakesFault (jz16Within limit a c s) s .invalidAddress ∧
    TakesFault (run16Within limit a s) s .invalidAddress

/-- The rows that are no instruction complete, in every state, by the effect the table gives them: UnknownOpcode is taken.
-/
def Obligations.UnassignedRowsRaiseUnknownOpcode : Prop :=
  ∀ (s : State) (op : Byte),
    TakesFault (exec .reserved1F s) s .unknownOpcode ∧ TakesFault (exec (.reserved20 op) s) s .unknownOpcode ∧
    TakesFault (exec (.reserved30 op) s) s .unknownOpcode ∧ TakesFault (exec (.reserved34 op) s) s .unknownOpcode ∧
    TakesFault (exec .reserved36 s) s .unknownOpcode ∧ TakesFault (exec .unassigned37 s) s .unknownOpcode ∧
    TakesFault (exec (.unassigned38 op) s) s .unknownOpcode ∧ TakesFault (exec (.unassigned40 op) s) s .unknownOpcode ∧
    TakesFault (exec (.unassigned80 op) s) s .unknownOpcode

/-! ## The host -/

/-- Reset, from any state, leaves what the spec's table says: memory zero, SP, pc, OF, ICOUNT and FPC zero, RUNSTATE Idle,
no fault, OUT empty, INPOS 0; so does the reset state. The values but memory and SP are the spec's decisions D8, D9 and D11
to D17. -/
def Obligations.ResetLeavesTheTableOfValues : Prop :=
  ∀ s t : State, (t = s.hostReset ∨ t = State.reset) →
    (∀ x : Nat, t.mem.read x = 0) ∧ t.sp.val = 0 ∧ t.pc = 0 ∧ t.of = false ∧ t.icount = 0 ∧ t.runState = .idle ∧
    t.fkind = none ∧ t.fpc = 0 ∧ t.out = [] ∧ t.input.pos = 0

/-- Load completes in Idle: byte i of the image goes to address i, bytes from 65536 on are discarded, nothing else changes;
outside Idle it is refused. The spec's decisions D12 and D21. -/
def Obligations.LoadPlacesTheImage : Prop :=
  ∀ (image : List Byte) (s : State),
    (s.runState = .idle → ∃ t, s.load image = .next t ∧ t = { s with mem := t.mem } ∧
      (∀ (x : Nat) (h : x < image.length), x < Config.memorySize → t.mem.read x = image[x]) ∧
      (∀ x : Nat, image.length ≤ x → t.mem.read x = s.mem.read x)) ∧
    (s.runState ≠ .idle → s.load image = .refused .loadOutsideIdle)

/-- Run completes in Idle from every start address and sets pc and RUNSTATE only; outside Idle, after a halt too, it is
refused. The spec's decision D12. -/
def Obligations.RunStartsAtTheGivenAddress : Prop :=
  ∀ (start : Addr16) (s : State),
    (s.runState = .idle → ∃ t, s.run start = .next t ∧ t.pc.toNat = start.toNat ∧
      t = { s with pc := t.pc, runState := .running }) ∧
    (s.runState ≠ .idle → s.run start = .refused .runOutsideIdle)

/-- The outcome record can be read exactly in a Halted state, and reports RUNSTATE, FKIND, ICOUNT, OF and SP, and FPC for a
fault. The spec's decision D25; that the record's FPC is none after a normal halt, where the spec only calls it not
meaningful, is the model's choice (log 22). -/
def Obligations.OutcomeRecordReportsTheRun : Prop :=
  ∀ s : State, s.Inv → (s.outcome.isSome = true ↔ s.halted) ∧
    ∀ r, s.outcome = some r →
      r.runState = s.runState ∧ r.fkind = s.fkind ∧ r.icount = s.icount ∧ r.of = s.of ∧ r.sp = s.sp ∧
      (∀ k, s.runState = .haltedFault k → r.fpc = some s.pc) ∧ (s.runState = .haltedNormal → r.fpc = none)
end

