-- ==== Sys2Proof/Laws/Alu.lean ====
section
/-! SUPPORT. What the unit's functions are as numbers, said once. -/

namespace Sys2Proof.Machine

/-- The masked count is the count modulo 8 (R140). -/
theorem shiftCount_eq (n : Byte) : shiftCount n = n.toNat % 8 := by
  revert n; decide

theorem digitByte_toNat {k : Nat} (h : k < 10) : (digitByte k).toNat = 0x30 + k := by
  simp only [digitByte, BitVec.toNat_ofNat]
  omega

/-- PUTN's text has one to three bytes (R202). -/
theorem decimalText_length (t : Byte) : 1 ≤ (decimalText t).length ∧ (decimalText t).length ≤ 3 := by
  unfold decimalText
  split <;> split <;> simp

/-- PUTN's text is made of digits (R202). -/
theorem decimalText_digits (t : Byte) : ∀ b ∈ decimalText t, 0x30 ≤ b.toNat ∧ b.toNat ≤ 0x39 := by
  have ht := t.isLt
  have key : ∀ k, k < 10 → 0x30 ≤ (digitByte k).toNat ∧ (digitByte k).toNat ≤ 0x39 := fun k hk => by
    rw [digitByte_toNat hk]; omega
  intro b hb
  simp only [decimalText, List.mem_append, List.mem_singleton] at hb
  rcases hb with (hb | hb) | hb
  · split at hb
    · rw [List.mem_singleton] at hb; subst hb; exact key _ (by omega)
    · simp at hb
  · split at hb
    · rw [List.mem_singleton] at hb; subst hb; exact key _ (by omega)
    · simp at hb
  · subst hb; exact key _ (by omega)

/-- Read as a decimal number, PUTN's text is the byte's value (R202). -/
theorem decimalText_value (t : Byte) :
    (decimalText t).foldl (fun n b => n * 10 + (b.toNat - 0x30)) 0 = t.toNat := by
  have ht := t.isLt
  have h1 : (digitByte (t.toNat / 100)).toNat = 0x30 + t.toNat / 100 := digitByte_toNat (by omega)
  have h2 : (digitByte (t.toNat / 10 % 10)).toNat = 0x30 + t.toNat / 10 % 10 := digitByte_toNat (by omega)
  have h3 : (digitByte (t.toNat % 10)).toNat = 0x30 + t.toNat % 10 := digitByte_toNat (by omega)
  unfold decimalText
  split <;> split <;> simp only [List.nil_append, List.cons_append, List.foldl_cons, List.foldl_nil, h1, h2, h3] <;> omega

/-- PUTN's text has no leading zero (R202). -/
theorem decimalText_no_leading_zero (t : Byte) (h : (decimalText t).head? = some 0x30) : decimalText t = [0x30] := by
  have ht := t.isLt
  have key : ∀ k, k < 10 → digitByte k = 0x30 → k = 0 := fun k hk e => by
    have := congrArg BitVec.toNat e
    rw [digitByte_toNat hk] at this
    simp at this; omega
  unfold decimalText at h ⊢
  split at h <;> split at h
  · have := key (t.toNat / 100) (by omega) (by simpa using h); omega
  · have := key (t.toNat / 100) (by omega) (by simpa using h); omega
  · have := key (t.toNat / 10 % 10) (by omega) (by simpa using h); omega
  · rename_i h1 h2
    have := key (t.toNat % 10) (by omega) (by simpa using h)
    simp only [h1, h2, if_false, List.nil_append]
    rw [this]; rfl

/-- The quotient fits a byte (R180). -/
theorem aluDiv_toNat (x y : Byte) : (aluDiv x y).toNat = x.toNat / y.toNat := by
  have h := x.isLt
  simp only [aluDiv, BitVec.toNat_ofNat]
  exact Nat.mod_eq_of_lt (Nat.lt_of_le_of_lt (Nat.div_le_self _ _) h)

/-- The shifted byte fits a byte (R140). -/
theorem aluShr_toNat (x n : Byte) : (aluShr x n).toNat = x.toNat / 2 ^ shiftCount n := by
  have h := x.isLt
  simp only [aluShr, BitVec.toNat_ofNat]
  exact Nat.mod_eq_of_lt (Nat.lt_of_le_of_lt (Nat.div_le_self _ _) h)

end Sys2Proof.Machine
end

