-- ==== Sys2Proof/Laws/Decode.lean ====
section
/-! SUPPORT. The two bytes of a 16-bit address, the widths, and the lookup of a reserved row's byte. -/

namespace Sys2Proof

@[simp] theorem joinBytes_toNat (hi lo : Byte) : (joinBytes hi lo).toNat = hi.toNat * 256 + lo.toNat := by
  have := hi.isLt; have := lo.isLt
  simp only [joinBytes, BitVec.toNat_ofNat]; omega

@[simp] theorem joinBytes_split (a : Addr16) : joinBytes (highByte a) (lowByte a) = a := by
  apply BitVec.eq_of_toNat_eq
  have := a.isLt
  simp only [joinBytes_toNat, highByte, lowByte, BitVec.toNat_ofNat]; omega

@[simp] theorem highByte_join (hi lo : Byte) : highByte (joinBytes hi lo) = hi := by
  apply BitVec.eq_of_toNat_eq
  have := hi.isLt; have := lo.isLt
  simp only [highByte, joinBytes_toNat, BitVec.toNat_ofNat]; omega

@[simp] theorem lowByte_join (hi lo : Byte) : lowByte (joinBytes hi lo) = lo := by
  apply BitVec.eq_of_toNat_eq
  have := hi.isLt; have := lo.isLt
  simp only [lowByte, joinBytes_toNat, BitVec.toNat_ofNat]; omega

/-! ### The width column of R72 and R78, opcode by opcode -/

@[simp] theorem width_nop : Opcode.width .nop = 1 := rfl
@[simp] theorem width_poke : Opcode.width .poke = 3 := rfl
@[simp] theorem width_move : Opcode.width .move = 3 := rfl
@[simp] theorem width_nand : Opcode.width .nand = 4 := rfl
@[simp] theorem width_jmp : Opcode.width .jmp = 2 := rfl
@[simp] theorem width_jz : Opcode.width .jz = 3 := rfl
@[simp] theorem width_run : Opcode.width .run = 2 := rfl
@[simp] theorem width_halt : Opcode.width .halt = 1 := rfl
@[simp] theorem width_xor : Opcode.width .xor = 4 := rfl
@[simp] theorem width_inc : Opcode.width .inc = 2 := rfl
@[simp] theorem width_dec : Opcode.width .dec = 2 := rfl
@[simp] theorem width_cmp : Opcode.width .cmp = 4 := rfl
@[simp] theorem width_comment : Opcode.width .comment = 2 := rfl
@[simp] theorem width_putc : Opcode.width .putc = 2 := rfl
@[simp] theorem width_putn : Opcode.width .putn = 2 := rfl
@[simp] theorem width_getc : Opcode.width .getc = 2 := rfl
@[simp] theorem width_ret : Opcode.width .ret = 1 := rfl
@[simp] theorem width_add : Opcode.width .add = 4 := rfl
@[simp] theorem width_sub : Opcode.width .sub = 4 := rfl
@[simp] theorem width_mul : Opcode.width .mul = 4 := rfl
@[simp] theorem width_div : Opcode.width .div = 4 := rfl
@[simp] theorem width_shl : Opcode.width .shl = 4 := rfl
@[simp] theorem width_shr : Opcode.width .shr = 4 := rfl
@[simp] theorem width_poke16 : Opcode.width .poke16 = 4 := rfl
@[simp] theorem width_move16 : Opcode.width .move16 = 5 := rfl
@[simp] theorem width_jmp16 : Opcode.width .jmp16 = 3 := rfl
@[simp] theorem width_jz16 : Opcode.width .jz16 = 4 := rfl
@[simp] theorem width_run16 : Opcode.width .run16 = 3 := rfl
@[simp] theorem width_reserved1F : Opcode.width .reserved1F = 1 := rfl
@[simp] theorem width_reserved20 : Opcode.width .reserved20 = 1 := rfl
@[simp] theorem width_reserved30 : Opcode.width .reserved30 = 1 := rfl
@[simp] theorem width_reserved34 : Opcode.width .reserved34 = 1 := rfl
@[simp] theorem width_reserved36 : Opcode.width .reserved36 = 1 := rfl
@[simp] theorem width_unassigned37 : Opcode.width .unassigned37 = 1 := rfl
@[simp] theorem width_unassigned38 : Opcode.width .unassigned38 = 1 := rfl
@[simp] theorem width_unassigned40 : Opcode.width .unassigned40 = 1 := rfl
@[simp] theorem width_unassigned80 : Opcode.width .unassigned80 = 1 := rfl
@[simp] theorem width_not : Opcode.width .not = 2 := rfl
@[simp] theorem width_and : Opcode.width .and = 4 := rfl
@[simp] theorem width_or : Opcode.width .or = 4 := rfl

theorem width_pos (op : Opcode) : 0 < op.width := by cases op <;> decide

theorem width_le_maxWidth (op : Opcode) : op.width ≤ maxWidth := by cases op <;> decide

/-- The table matches every byte (R79). -/
theorem lookupOpcode_isSome : ∀ b : Byte, (lookupOpcode b).isSome = true := by decide

/-- A latch of W bytes is as long as the decoder asks, so decoding it cannot fail (R105). -/
theorem decodeOperands_ok (op : Opcode) (b0 : Byte) (bs : List Byte) (h : bs.length + 1 = op.width) :
    ∃ i, decodeOperands op b0 bs = .ok (i, []) ∧ i.opcode = op := by
  have h' : bs.length = op.width - 1 := by omega
  clear h
  cases op <;> simp only [Opcode.width, Opcode.format, Format.width, Nat.reduceSub] at h' <;>
    (first
      | (obtain rfl := List.length_eq_zero_iff.mp h'; exact ⟨_, rfl, rfl⟩)
      | (obtain ⟨b1, rfl⟩ := List.length_eq_one_iff.mp h'; exact ⟨_, rfl, rfl⟩)
      | (obtain ⟨b1, b2, rfl⟩ := List.length_eq_two.mp h'; exact ⟨_, rfl, rfl⟩)
      | (obtain ⟨b1, b2, b3, rfl⟩ := List.length_eq_three.mp h'; exact ⟨_, rfl, rfl⟩)
      | (match bs, h' with | [b1, b2, b3, b4], _ => exact ⟨_, rfl, rfl⟩))

end Sys2Proof
end

