-- ==== Sys2Proof/Laws/Memory.lean ====
section
/-! SUPPORT. Memory: a read after a write, and the canonical form, which every operation keeps. -/

namespace Sys2Proof.Machine

@[simp] theorem read_nil (a : Nat) : Memory.read [] a = 0 := rfl

theorem read_cons (c : Host.Cell) (cs : Memory) (a : Nat) :
    Memory.read (c :: cs) a = if c.1 = a then c.2 else Memory.read cs a := rfl

theorem read_of_absent {m : Memory} {a : Nat} (h : ∀ c ∈ m, c.1 ≠ a) : m.read a = 0 := by
  induction m with
  | nil => rfl
  | cons c cs ih =>
    rw [read_cons, if_neg (h c (by simp))]
    exact ih (fun d hd => h d (by simp [hd]))

theorem erase_cons (c : Host.Cell) (cs : Memory) (a : Nat) :
    Memory.erase (c :: cs) a = if c.1 = a then Memory.erase cs a else c :: Memory.erase cs a := by
  unfold Memory.erase
  by_cases h : c.1 = a <;> simp [h]

theorem mem_erase {m : Memory} {a : Nat} {c : Host.Cell} : c ∈ m.erase a ↔ c ∈ m ∧ c.1 ≠ a := by
  simp [Memory.erase]

theorem read_erase_same (m : Memory) (a : Nat) : (m.erase a).read a = 0 :=
  read_of_absent (fun _ hc => (mem_erase.mp hc).2)

theorem read_erase_other (m : Memory) {a x : Nat} (h : x ≠ a) : (m.erase a).read x = m.read x := by
  induction m with
  | nil => rfl
  | cons c cs ih =>
    rw [erase_cons]
    by_cases hc : c.1 = a
    · rw [if_pos hc, ih, read_cons, if_neg (by omega)]
    · rw [if_neg hc, read_cons, read_cons, ih]

theorem read_insertEntry_same {m : Memory} {a : Nat} (v : Byte) (h : ∀ c ∈ m, c.1 ≠ a) :
    Memory.read (Memory.insertEntry a v m) a = v := by
  induction m with
  | nil => simp [Memory.insertEntry, read_cons]
  | cons c cs ih =>
    unfold Memory.insertEntry
    split
    · simp [read_cons]
    · rw [read_cons, if_neg (h c (by simp))]
      exact ih (fun d hd => h d (by simp [hd]))

theorem read_insertEntry_other (m : Memory) {a x : Nat} (v : Byte) (h : x ≠ a) :
    Memory.read (Memory.insertEntry a v m) x = m.read x := by
  induction m with
  | nil => simp [Memory.insertEntry, read_cons, h.symm]
  | cons c cs ih =>
    unfold Memory.insertEntry
    split
    · rw [read_cons, if_neg (by simpa using h.symm)]
    · rw [read_cons, read_cons, ih]

/-- R53, R60: a read returns the value of the latest write to that cell. -/
theorem read_write_same (m : Memory) (a : Nat) (v : Byte) : (m.write a v).read a = v := by
  unfold Memory.write
  split
  · rename_i h; rw [read_erase_same, h]; rfl
  · exact read_insertEntry_same v (fun _ hc => (mem_erase.mp hc).2)

/-- R53: no other cell changes. -/
theorem read_write_other (m : Memory) {a x : Nat} (v : Byte) (h : x ≠ a) : (m.write a v).read x = m.read x := by
  unfold Memory.write
  split
  · exact read_erase_other m h
  · rw [read_insertEntry_other _ v h, read_erase_other m h]

theorem read_write (m : Memory) (a x : Nat) (v : Byte) :
    (m.write a v).read x = if x = a then v else m.read x := by
  split
  · subst x; exact read_write_same m a v
  · exact read_write_other m v ‹_›

/-! ### The canonical form -/

theorem wf_nil : Memory.wf [] := by simp [Memory.wf]

theorem wf_tail {c : Host.Cell} {cs : Memory} (h : Memory.wf (c :: cs)) : Memory.wf cs :=
  ⟨(List.pairwise_cons.mp h.1).2, fun d hd => h.2 d (by simp [hd])⟩

theorem wf_erase {m : Memory} (h : m.wf) (a : Nat) : (m.erase a).wf :=
  ⟨h.1.sublist List.filter_sublist, fun c hc => h.2 c (mem_erase.mp hc).1⟩

theorem mem_insertEntry {m : Memory} {a : Nat} {v : Byte} {c : Host.Cell} :
    c ∈ Memory.insertEntry a v m ↔ c = (a, v) ∨ c ∈ m := by
  induction m with
  | nil => simp [Memory.insertEntry]
  | cons d ds ih =>
    unfold Memory.insertEntry
    split
    · simp
    · simp only [List.mem_cons, ih]
      exact or_left_comm

theorem pairwise_insertEntry {m : Memory} {a : Nat} (v : Byte)
    (h : m.Pairwise (fun c d => c.1 < d.1)) (ha : ∀ c ∈ m, c.1 ≠ a) :
    (Memory.insertEntry a v m).Pairwise (fun c d => c.1 < d.1) := by
  induction m with
  | nil => simp [Memory.insertEntry]
  | cons c cs ih =>
    obtain ⟨hc, hcs⟩ := List.pairwise_cons.mp h
    unfold Memory.insertEntry
    split
    · rename_i hlt
      refine List.pairwise_cons.mpr ⟨fun d hd => ?_, h⟩
      rcases List.mem_cons.mp hd with rfl | hd
      · exact hlt
      · exact Nat.lt_trans hlt (hc d hd)
    · rename_i hge
      refine List.pairwise_cons.mpr ⟨fun d hd => ?_, ih hcs (fun d hd => ha d (by simp [hd]))⟩
      rcases mem_insertEntry.mp hd with rfl | hd
      · have := ha c (by simp); simp only; omega
      · exact hc d hd

theorem wf_write {m : Memory} (h : m.wf) {a : Nat} (ha : a < Config.memorySize) (v : Byte) : (m.write a v).wf := by
  have he := wf_erase h a
  unfold Memory.write
  split
  · exact he
  · rename_i hv
    refine ⟨pairwise_insertEntry v he.1 (fun c hc => (mem_erase.mp hc).2), fun c hc => ?_⟩
    rcases mem_insertEntry.mp hc with rfl | hc
    · exact ⟨ha, hv⟩
    · exact he.2 c hc

theorem addr16_lt (a : Addr16) : a.toNat < Config.memorySize := a.isLt

theorem wf_memWrite {s : State} (h : s.mem.wf) (a : Addr16) (v : Byte) : (s.memWrite a v).mem.wf :=
  wf_write h (addr16_lt a) v

theorem wf_writeBytes {m : Memory} (h : m.wf) (base : Nat) (bs : List Byte) : (m.writeBytes base bs).wf := by
  induction bs generalizing m base with
  | nil => exact h
  | cons b bs ih =>
    unfold Memory.writeBytes
    split
    · exact ih (wf_write h ‹_› b) (base + 1)
    · exact h

/-- An address at or above MEMORY_SIZE is never listed. -/
theorem read_outside {m : Memory} (h : m.wf) {a : Nat} (ha : Config.memorySize ≤ a) : m.read a = 0 :=
  read_of_absent (fun c hc => by have := (h.2 c hc).1; omega)

/-- Bytes below the base are not touched. -/
theorem read_writeBytes_below (m : Memory) {base x : Nat} (bs : List Byte) (h : x < base) :
    (m.writeBytes base bs).read x = m.read x := by
  induction bs generalizing m base with
  | nil => rfl
  | cons b bs ih =>
    unfold Memory.writeBytes
    split
    · rw [ih _ (by omega), read_write_other _ _ (by omega)]
    · rfl

/-- Byte `k` of the list lies at `base + k`, if that address exists (R38). -/
theorem read_writeBytes_inside (m : Memory) (base : Nat) (bs : List Byte) {k : Nat} (hk : k < bs.length)
    (hm : base + k < Config.memorySize) : (m.writeBytes base bs).read (base + k) = bs[k] := by
  induction bs generalizing m base k with
  | nil => simp at hk
  | cons b bs ih =>
    unfold Memory.writeBytes
    rw [if_pos (by omega)]
    cases k with
    | zero =>
      rw [read_writeBytes_below _ _ (by omega)]
      exact read_write_same m base b
    | succ k =>
      have := ih (m.write base b) (base + 1) (k := k) (by simpa using hk) (by omega)
      rw [show base + (k + 1) = base + 1 + k by omega, this]; rfl

/-- Bytes past the list are not touched. -/
theorem read_writeBytes_above (m : Memory) {base x : Nat} (bs : List Byte) (h : base + bs.length ≤ x) :
    (m.writeBytes base bs).read x = m.read x := by
  induction bs generalizing m base with
  | nil => rfl
  | cons b bs ih =>
    rw [List.length_cons] at h
    unfold Memory.writeBytes
    split
    · rw [ih _ (by omega), read_write_other _ _ (by omega)]
    · rfl

end Sys2Proof.Machine
end

