-- ==== Sys2Proof/Laws/State.lean ====
section
/-! SUPPORT. One lemma per field and named update of State, true by rfl, so that no proof unfolds a record update. -/

namespace Sys2Proof.Machine

/-! ### memWrite -/

@[simp] theorem memWrite_mem (s : State) (a : Addr16) (v : Byte) : (s.memWrite a v).mem = s.mem.write a.toNat v := rfl
@[simp] theorem memWrite_stk (s : State) (a : Addr16) (v : Byte) : (s.memWrite a v).stk = s.stk := rfl
@[simp] theorem memWrite_sp (s : State) (a : Addr16) (v : Byte) : (s.memWrite a v).sp = s.sp := rfl
@[simp] theorem memWrite_pc (s : State) (a : Addr16) (v : Byte) : (s.memWrite a v).pc = s.pc := rfl
@[simp] theorem memWrite_of (s : State) (a : Addr16) (v : Byte) : (s.memWrite a v).of = s.of := rfl
@[simp] theorem memWrite_icount (s : State) (a : Addr16) (v : Byte) : (s.memWrite a v).icount = s.icount := rfl
@[simp] theorem memWrite_runState (s : State) (a : Addr16) (v : Byte) : (s.memWrite a v).runState = s.runState := rfl
@[simp] theorem memWrite_fkind (s : State) (a : Addr16) (v : Byte) : (s.memWrite a v).fkind = s.fkind := rfl
@[simp] theorem memWrite_fpc (s : State) (a : Addr16) (v : Byte) : (s.memWrite a v).fpc = s.fpc := rfl
@[simp] theorem memWrite_out (s : State) (a : Addr16) (v : Byte) : (s.memWrite a v).out = s.out := rfl
@[simp] theorem memWrite_input (s : State) (a : Addr16) (v : Byte) : (s.memWrite a v).input = s.input := rfl

/-! ### commitPc -/

@[simp] theorem commitPc_mem (s : State) (src : PcSource) : (s.commitPc src).mem = s.mem := rfl
@[simp] theorem commitPc_stk (s : State) (src : PcSource) : (s.commitPc src).stk = s.stk := rfl
@[simp] theorem commitPc_sp (s : State) (src : PcSource) : (s.commitPc src).sp = s.sp := rfl
@[simp] theorem commitPc_pc (s : State) (src : PcSource) : (s.commitPc src).pc = nextPc s.pc src := rfl
@[simp] theorem commitPc_of (s : State) (src : PcSource) : (s.commitPc src).of = s.of := rfl
@[simp] theorem commitPc_icount (s : State) (src : PcSource) : (s.commitPc src).icount = s.icount := rfl
@[simp] theorem commitPc_runState (s : State) (src : PcSource) : (s.commitPc src).runState = s.runState := rfl
@[simp] theorem commitPc_fkind (s : State) (src : PcSource) : (s.commitPc src).fkind = s.fkind := rfl
@[simp] theorem commitPc_fpc (s : State) (src : PcSource) : (s.commitPc src).fpc = s.fpc := rfl
@[simp] theorem commitPc_out (s : State) (src : PcSource) : (s.commitPc src).out = s.out := rfl
@[simp] theorem commitPc_input (s : State) (src : PcSource) : (s.commitPc src).input = s.input := rfl

/-! ### advance -/

@[simp] theorem advance_mem (s : State) (op : Opcode) : (s.advance op).mem = s.mem := rfl
@[simp] theorem advance_stk (s : State) (op : Opcode) : (s.advance op).stk = s.stk := rfl
@[simp] theorem advance_sp (s : State) (op : Opcode) : (s.advance op).sp = s.sp := rfl
@[simp] theorem advance_pc (s : State) (op : Opcode) : (s.advance op).pc = BitVec.ofNat 32 (s.pc.toNat + op.width) := rfl
@[simp] theorem advance_of (s : State) (op : Opcode) : (s.advance op).of = s.of := rfl
@[simp] theorem advance_icount (s : State) (op : Opcode) : (s.advance op).icount = s.icount := rfl
@[simp] theorem advance_runState (s : State) (op : Opcode) : (s.advance op).runState = s.runState := rfl
@[simp] theorem advance_fkind (s : State) (op : Opcode) : (s.advance op).fkind = s.fkind := rfl
@[simp] theorem advance_fpc (s : State) (op : Opcode) : (s.advance op).fpc = s.fpc := rfl
@[simp] theorem advance_out (s : State) (op : Opcode) : (s.advance op).out = s.out := rfl
@[simp] theorem advance_input (s : State) (op : Opcode) : (s.advance op).input = s.input := rfl

/-! ### setOf -/

@[simp] theorem setOf_mem (s : State) (b : Bool) : (s.setOf b).mem = s.mem := rfl
@[simp] theorem setOf_stk (s : State) (b : Bool) : (s.setOf b).stk = s.stk := rfl
@[simp] theorem setOf_sp (s : State) (b : Bool) : (s.setOf b).sp = s.sp := rfl
@[simp] theorem setOf_pc (s : State) (b : Bool) : (s.setOf b).pc = s.pc := rfl
@[simp] theorem setOf_of (s : State) (b : Bool) : (s.setOf b).of = b := rfl
@[simp] theorem setOf_icount (s : State) (b : Bool) : (s.setOf b).icount = s.icount := rfl
@[simp] theorem setOf_runState (s : State) (b : Bool) : (s.setOf b).runState = s.runState := rfl
@[simp] theorem setOf_fkind (s : State) (b : Bool) : (s.setOf b).fkind = s.fkind := rfl
@[simp] theorem setOf_fpc (s : State) (b : Bool) : (s.setOf b).fpc = s.fpc := rfl
@[simp] theorem setOf_out (s : State) (b : Bool) : (s.setOf b).out = s.out := rfl
@[simp] theorem setOf_input (s : State) (b : Bool) : (s.setOf b).input = s.input := rfl

/-! ### count -/

@[simp] theorem count_mem (s : State) : (s.count).mem = s.mem := rfl
@[simp] theorem count_stk (s : State) : (s.count).stk = s.stk := rfl
@[simp] theorem count_sp (s : State) : (s.count).sp = s.sp := rfl
@[simp] theorem count_pc (s : State) : (s.count).pc = s.pc := rfl
@[simp] theorem count_of (s : State) : (s.count).of = s.of := rfl
@[simp] theorem count_icount (s : State) : (s.count).icount = BitVec.ofNat 32 (s.icount.toNat + 1) := rfl
@[simp] theorem count_runState (s : State) : (s.count).runState = s.runState := rfl
@[simp] theorem count_fkind (s : State) : (s.count).fkind = s.fkind := rfl
@[simp] theorem count_fpc (s : State) : (s.count).fpc = s.fpc := rfl
@[simp] theorem count_out (s : State) : (s.count).out = s.out := rfl
@[simp] theorem count_input (s : State) : (s.count).input = s.input := rfl

/-! ### halt -/

@[simp] theorem halt_mem (s : State) : (s.halt).mem = s.mem := rfl
@[simp] theorem halt_stk (s : State) : (s.halt).stk = s.stk := rfl
@[simp] theorem halt_sp (s : State) : (s.halt).sp = s.sp := rfl
@[simp] theorem halt_pc (s : State) : (s.halt).pc = s.pc := rfl
@[simp] theorem halt_of (s : State) : (s.halt).of = s.of := rfl
@[simp] theorem halt_icount (s : State) : (s.halt).icount = s.icount := rfl
@[simp] theorem halt_runState (s : State) : (s.halt).runState = .haltedNormal := rfl
@[simp] theorem halt_fkind (s : State) : (s.halt).fkind = s.fkind := rfl
@[simp] theorem halt_fpc (s : State) : (s.halt).fpc = s.fpc := rfl
@[simp] theorem halt_out (s : State) : (s.halt).out = s.out := rfl
@[simp] theorem halt_input (s : State) : (s.halt).input = s.input := rfl

/-! ### raise -/

@[simp] theorem raise_mem (s : State) (k : FaultKind) : (s.raise k).mem = s.mem := rfl
@[simp] theorem raise_stk (s : State) (k : FaultKind) : (s.raise k).stk = s.stk := rfl
@[simp] theorem raise_sp (s : State) (k : FaultKind) : (s.raise k).sp = s.sp := rfl
@[simp] theorem raise_pc (s : State) (k : FaultKind) : (s.raise k).pc = s.pc := rfl
@[simp] theorem raise_of (s : State) (k : FaultKind) : (s.raise k).of = s.of := rfl
@[simp] theorem raise_icount (s : State) (k : FaultKind) : (s.raise k).icount = s.icount := rfl
@[simp] theorem raise_runState (s : State) (k : FaultKind) : (s.raise k).runState = .haltedFault k := rfl
@[simp] theorem raise_fkind (s : State) (k : FaultKind) : (s.raise k).fkind = some k := rfl
@[simp] theorem raise_fpc (s : State) (k : FaultKind) : (s.raise k).fpc = s.pc := rfl
@[simp] theorem raise_out (s : State) (k : FaultKind) : (s.raise k).out = s.out := rfl
@[simp] theorem raise_input (s : State) (k : FaultKind) : (s.raise k).input = s.input := rfl

/-! ### emit -/

@[simp] theorem emit_mem (s : State) (bs : List Byte) : (s.emit bs).mem = s.mem := rfl
@[simp] theorem emit_stk (s : State) (bs : List Byte) : (s.emit bs).stk = s.stk := rfl
@[simp] theorem emit_sp (s : State) (bs : List Byte) : (s.emit bs).sp = s.sp := rfl
@[simp] theorem emit_pc (s : State) (bs : List Byte) : (s.emit bs).pc = s.pc := rfl
@[simp] theorem emit_of (s : State) (bs : List Byte) : (s.emit bs).of = s.of := rfl
@[simp] theorem emit_icount (s : State) (bs : List Byte) : (s.emit bs).icount = s.icount := rfl
@[simp] theorem emit_runState (s : State) (bs : List Byte) : (s.emit bs).runState = s.runState := rfl
@[simp] theorem emit_fkind (s : State) (bs : List Byte) : (s.emit bs).fkind = s.fkind := rfl
@[simp] theorem emit_fpc (s : State) (bs : List Byte) : (s.emit bs).fpc = s.fpc := rfl
@[simp] theorem emit_out (s : State) (bs : List Byte) : (s.emit bs).out = s.out ++ bs := rfl
@[simp] theorem emit_input (s : State) (bs : List Byte) : (s.emit bs).input = s.input := rfl

/-! ### nextPc -/

@[simp] theorem nextPc_seq (pc : Pc) (w : Nat) : nextPc pc (.seq w) = BitVec.ofNat 32 (pc.toNat + w) := rfl
@[simp] theorem nextPc_skip (pc : Pc) (len : Byte) : nextPc pc (.skip len) = BitVec.ofNat 32 (pc.toNat + 2 + len.toNat) := rfl
@[simp] theorem nextPc_abs8 (pc : Pc) (a : Addr8) : nextPc pc (.abs8 a) = a.setWidth 32 := rfl
@[simp] theorem nextPc_abs16 (pc : Pc) (a : Addr16) : nextPc pc (.abs16 a) = a.setWidth 32 := rfl
@[simp] theorem nextPc_pop (pc : Pc) (v : Addr16) : nextPc pc (.pop v) = v.setWidth 32 := rfl
@[simp] theorem nextPc_hold (pc : Pc) : nextPc pc .hold = pc := rfl

end Sys2Proof.Machine
end

