-- ==== Sys2Proof/Laws/Ops.lean ====
section
/-! SUPPORT. What each shared operation can do, said once. -/

namespace Sys2Proof.Machine

@[simp] theorem ea8_toNat (a : Addr8) : (ea8 a).toNat = a.toNat := by
  have := a.isLt
  simp only [ea8, BitVec.toNat_setWidth]; omega

theorem memRead_eq (s : State) (a : Addr16) : s.memRead a = s.mem.read a.toNat := rfl

/-- R52, R53 together. -/
theorem memRead_memWrite (s : State) (a b : Addr16) (v : Byte) :
    (s.memWrite a v).memRead b = if b = a then v else s.memRead b := by
  simp only [memRead_eq, memWrite_mem, read_write, BitVec.toNat_inj]

theorem hasOperands_iff (p n : Nat) : hasOperands p n = true ↔ p < 65536 ∧ p + n ≤ 65536 := by
  simp [hasOperands, Config.memorySize]

/-- At this hardware's ADDR_LIMIT every decoded address is valid (R106). -/
@[simp] theorem validAddr_addrLimit (a : Addr16) : validAddr Config.addrLimit a = true := by
  have := a.isLt
  simp only [validAddr, Config.addrLimit, Config.memorySize, decide_eq_true_eq]; omega

/-! ### The call-stack controller -/

/-- R110, with room: the entry is stored at STK[SP], SP rises by one, nothing else changes. -/
theorem push_of_room {s : State} (h : s.sp.val < 64) (v : Addr16) :
    s.push v = some { s with stk := s.stk.set s.sp.val v h, sp := ⟨s.sp.val + 1, Nat.succ_lt_succ h⟩ } := by
  simp [State.push, h]

/-- R110, full: the overflow report. -/
theorem push_of_full {s : State} (h : s.sp.val = 64) (v : Addr16) : s.push v = none := by
  simp [State.push, h]

/-- R111, not empty: STK[SP-1] is returned, SP falls by one, nothing else changes. -/
theorem pop_of_nonempty {s : State} (h : s.sp.val ≠ 0) :
    ∃ hlt : s.sp.val - 1 < 64,
      s.pop = some (s.stk[s.sp.val - 1], { s with sp := ⟨s.sp.val - 1, Nat.lt_succ_of_lt hlt⟩ }) := by
  refine ⟨by have := s.sp.isLt; omega, ?_⟩
  simp [State.pop, h]

/-- R111, empty: the underflow report. -/
theorem pop_of_empty {s : State} (h : s.sp.val = 0) : s.pop = none := by
  simp [State.pop, h]

/-- R111: the popped value is a 16-bit entry, so the next pc is below MEMORY_SIZE (R112). -/
theorem setWidth16_lt (v : Addr16) : (v.setWidth 32 : Pc).toNat < 65536 := by
  have := v.isLt
  simp only [BitVec.toNat_setWidth]; omega

theorem setWidth8_lt (v : Addr8) : (v.setWidth 32 : Pc).toNat < 256 := by
  have := v.isLt
  simp only [BitVec.toNat_setWidth]; omega

/-! ### The streams -/

/-- R40: a byte is ready. -/
theorem takeInput_of_byte {s : State} (h : s.input.pos < s.input.bytes.length) :
    s.takeInput = some (s.input.bytes[s.input.pos], { s with input := { s.input with pos := s.input.pos + 1 } }) := by
  simp [State.takeInput, h]

/-- R40: the end of input answers 0 and INPOS stays. -/
theorem takeInput_of_end {s : State} (h : s.input.bytes.length ≤ s.input.pos) (he : s.input.ended = true) :
    s.takeInput = some (0, s) := by
  simp [State.takeInput, h, he]

/-- R102: neither. -/
theorem takeInput_of_wait {s : State} (h : s.inputReady = false) : s.takeInput = none := by
  simp only [State.inputReady, Bool.or_eq_false_iff, decide_eq_false_iff_not, Nat.not_lt] at h
  simp [State.takeInput, h.1, h.2]

/-- Input() is answered exactly when the environment is ready (R40, R102). -/
theorem takeInput_isSome (s : State) : s.takeInput.isSome = s.inputReady := by
  by_cases h : s.input.pos < s.input.bytes.length
  · rw [takeInput_of_byte h]; simp [State.inputReady, h]
  · cases he : s.input.ended
    · rw [takeInput_of_wait (by simp [State.inputReady, he]; omega)]; simp [State.inputReady, he]; omega
    · rw [takeInput_of_end (by omega) he]; simp [State.inputReady, he]

/-! ### Shapes: everything each can do -/

theorem raiseFault_eq (k : FaultKind) (s : State) : raiseFault k s = .next (s.raise k) := rfl

theorem unaryOp_eq (op : Opcode) (f : Byte → Byte) (a : Addr8) (s : State) :
    unaryOp op f a s = .next ((s.memWrite (ea8 a) (f (s.mem.read a.toNat))).advance op) := by
  simp [unaryOp, memRead_eq]

theorem binaryOp_eq (op : Opcode) (f : Byte → Byte → Byte) (a b d : Addr8) (s : State) :
    binaryOp op f a b d s =
      .next ((s.memWrite (ea8 d) (f (s.mem.read a.toNat) (s.mem.read b.toNat))).advance op) := by
  simp [binaryOp, memRead_eq]

theorem flaggedOp_eq (op : Opcode) (f : Byte → Byte → Byte) (flag : Byte → Byte → Bool) (a b d : Addr8) (s : State) :
    flaggedOp op f flag a b d s =
      .next (((s.memWrite (ea8 d) (f (s.mem.read a.toNat) (s.mem.read b.toNat))).setOf
        (flag (s.mem.read a.toNat) (s.mem.read b.toNat))).advance op) := by
  simp [flaggedOp, memRead_eq]

theorem branchIfZero_eq (op : Opcode) (target : PcSource) (c : Addr8) (s : State) :
    branchIfZero op target c s =
      .next (s.commitPc (if s.mem.read c.toNat = 0 then target else .seq op.width)) := by
  unfold branchIfZero
  rw [memRead_eq, ea8_toNat]
  split <;> rfl

/-- A call ends in one of three ways: InvalidAddress for a return address that fits no entry, StackOverflow on a full stack,
or the entry pushed and pc at the target (R113, R162). -/
theorem callTo_cases (op : Opcode) (target : PcSource) (s : State) :
    (Config.memorySize ≤ s.pc.toNat + op.width ∧ callTo op target s = raiseFault .invalidAddress s) ∨
    (s.pc.toNat + op.width < Config.memorySize ∧ s.sp.val = 64 ∧ callTo op target s = raiseFault .stackOverflow s) ∨
    (s.pc.toNat + op.width < Config.memorySize ∧ ∃ h : s.sp.val < 64,
      callTo op target s =
        .next { s with
          stk := s.stk.set s.sp.val (BitVec.ofNat 16 (s.pc.toNat + op.width)) h
          sp := ⟨s.sp.val + 1, Nat.succ_lt_succ h⟩
          pc := nextPc s.pc target }) := by
  by_cases hr : Config.memorySize ≤ s.pc.toNat + op.width
  · exact .inl ⟨hr, by simp [callTo, hr]⟩
  · by_cases hf : s.sp.val < 64
    · refine .inr (.inr ⟨by omega, hf, ?_⟩)
      simp only [callTo, ge_iff_le, hr, if_false, push_of_room hf]
      rfl
    · have hf : s.sp.val = 64 := by have := s.sp.isLt; omega
      refine .inr (.inl ⟨by omega, hf, ?_⟩)
      simp only [callTo, ge_iff_le, hr, if_false, push_of_full hf]

/-- With a call outstanding, popAndResume takes the top entry (R111, R163, R164). -/
theorem popAndResume_of_nonempty {s : State} (h : s.sp.val ≠ 0) :
    ∃ hlt : s.sp.val - 1 < 64,
      popAndResume s =
        .next { s with sp := ⟨s.sp.val - 1, Nat.lt_succ_of_lt hlt⟩, pc := (s.stk[s.sp.val - 1]).setWidth 32 } := by
  obtain ⟨hlt, hp⟩ := pop_of_nonempty h
  refine ⟨hlt, ?_⟩
  simp only [popAndResume, hp]
  rfl

end Sys2Proof.Machine
end

