-- ==== Sys2Proof/Laws/Exec.lean ====
section
/-! SUPPORT. exec, instruction by instruction, as an equation over the named updates; and once for all instructions, what a
next state of exec can be. -/

namespace Sys2Proof.Machine

/-! ### Equations -/

theorem exec_nop (s : State) : exec .nop s = .next (s.advance .nop) := rfl

theorem exec_poke (a : Addr8) (v : Byte) (s : State) :
    exec (.poke a v) s = .next ((s.memWrite (ea8 a) v).advance .poke) := rfl

theorem exec_move (src dst : Addr8) (s : State) :
    exec (.move src dst) s = .next ((s.memWrite (ea8 dst) (s.mem.read (ea8 src).toNat)).advance .move) := rfl

theorem exec_comment_fits {len : Byte} {s : State} (h : hasOperands s.pc.toNat (2 + len.toNat) = true) :
    exec (.comment len) s = .next (s.commitPc (.skip len)) := by
  simp [exec, execComment, commentWithin, h]

theorem exec_comment_overruns {len : Byte} {s : State} (h : hasOperands s.pc.toNat (2 + len.toNat) = false) :
    exec (.comment len) s = .next (s.raise .truncatedInstruction) := by
  simp [exec, execComment, commentWithin, h, raiseFault_eq]

theorem exec_not (a : Addr8) (s : State) :
    exec (.not a) s = .next ((s.memWrite (ea8 a) (aluNot (s.mem.read (ea8 a).toNat))).advance .not) := rfl

theorem exec_nand (a b d : Addr8) (s : State) :
    exec (.nand a b d) s = .next ((s.memWrite (ea8 d)
      (aluNand (s.mem.read (ea8 a).toNat) (s.mem.read (ea8 b).toNat))).advance .nand) := rfl

theorem exec_and (a b d : Addr8) (s : State) :
    exec (.and a b d) s = .next ((s.memWrite (ea8 d)
      (aluAnd (s.mem.read (ea8 a).toNat) (s.mem.read (ea8 b).toNat))).advance .and) := rfl

theorem exec_or (a b d : Addr8) (s : State) :
    exec (.or a b d) s = .next ((s.memWrite (ea8 d)
      (aluOr (s.mem.read (ea8 a).toNat) (s.mem.read (ea8 b).toNat))).advance .or) := rfl

theorem exec_xor (a b d : Addr8) (s : State) :
    exec (.xor a b d) s = .next ((s.memWrite (ea8 d)
      (aluXor (s.mem.read (ea8 a).toNat) (s.mem.read (ea8 b).toNat))).advance .xor) := rfl

theorem exec_cmp (a b d : Addr8) (s : State) :
    exec (.cmp a b d) s = .next ((s.memWrite (ea8 d)
      (aluEq (s.mem.read (ea8 a).toNat) (s.mem.read (ea8 b).toNat))).advance .cmp) := rfl

theorem exec_shl (a b d : Addr8) (s : State) :
    exec (.shl a b d) s = .next ((s.memWrite (ea8 d)
      (aluShl (s.mem.read (ea8 a).toNat) (s.mem.read (ea8 b).toNat))).advance .shl) := rfl

theorem exec_shr (a b d : Addr8) (s : State) :
    exec (.shr a b d) s = .next ((s.memWrite (ea8 d)
      (aluShr (s.mem.read (ea8 a).toNat) (s.mem.read (ea8 b).toNat))).advance .shr) := rfl

theorem exec_inc (a : Addr8) (s : State) :
    exec (.inc a) s = .next ((s.memWrite (ea8 a) (aluInc (s.mem.read (ea8 a).toNat))).advance .inc) := rfl

theorem exec_dec (a : Addr8) (s : State) :
    exec (.dec a) s = .next ((s.memWrite (ea8 a) (aluDec (s.mem.read (ea8 a).toNat))).advance .dec) := rfl

theorem exec_add (a b d : Addr8) (s : State) :
    exec (.add a b d) s = .next (((s.memWrite (ea8 d)
      (aluAdd (s.mem.read (ea8 a).toNat) (s.mem.read (ea8 b).toNat))).setOf
      (addFlag (s.mem.read (ea8 a).toNat) (s.mem.read (ea8 b).toNat))).advance .add) := rfl

theorem exec_sub (a b d : Addr8) (s : State) :
    exec (.sub a b d) s = .next (((s.memWrite (ea8 d)
      (aluSub (s.mem.read (ea8 a).toNat) (s.mem.read (ea8 b).toNat))).setOf
      (subFlag (s.mem.read (ea8 a).toNat) (s.mem.read (ea8 b).toNat))).advance .sub) := rfl

theorem exec_mul (a b d : Addr8) (s : State) :
    exec (.mul a b d) s = .next (((s.memWrite (ea8 d)
      (aluMul (s.mem.read (ea8 a).toNat) (s.mem.read (ea8 b).toNat))).setOf
      (mulFlag (s.mem.read (ea8 a).toNat) (s.mem.read (ea8 b).toNat))).advance .mul) := rfl

theorem exec_div_nonzero {a b d : Addr8} {s : State} (h : s.mem.read (ea8 b).toNat ≠ 0) :
    exec (.div a b d) s = .next ((s.memWrite (ea8 d)
      (aluDiv (s.mem.read (ea8 a).toNat) (s.mem.read (ea8 b).toNat))).advance .div) := by
  show execDiv a b d s = _
  rw [execDiv, memRead_eq, if_neg h]; rfl

theorem exec_div_zero {a b d : Addr8} {s : State} (h : s.mem.read (ea8 b).toNat = 0) :
    exec (.div a b d) s = .next (s.raise .divisionByZero) := by
  show execDiv a b d s = _
  rw [execDiv, memRead_eq, if_pos h]; rfl

theorem exec_jmp (a : Addr8) (s : State) : exec (.jmp a) s = .next (s.commitPc (.abs8 a)) := rfl

theorem exec_jz (a c : Addr8) (s : State) :
    exec (.jz a c) s = .next (s.commitPc (if s.mem.read c.toNat = 0 then .abs8 a else .seq 3)) :=
  branchIfZero_eq .jz (.abs8 a) c s

theorem exec_run (a : Addr8) (s : State) : exec (.run a) s = callTo .run (.abs8 a) s := rfl

theorem exec_halt_empty {s : State} (h : s.sp.val = 0) : exec .halt s = .next s.halt := by
  show execHalt s = _
  rw [execHalt, if_neg (by omega)]; rfl

theorem exec_halt_nonempty {s : State} (h : s.sp.val ≠ 0) : exec .halt s = popAndResume s := by
  show execHalt s = _
  rw [execHalt, if_pos (by omega)]

theorem exec_ret_empty {s : State} (h : s.sp.val = 0) : exec .ret s = .next (s.raise .retWithEmptyStack) := by
  show execRet s = _
  rw [execRet, if_pos h]; rfl

theorem exec_ret_nonempty {s : State} (h : s.sp.val ≠ 0) : exec .ret s = popAndResume s := by
  show execRet s = _
  rw [execRet, if_neg h]

theorem exec_putc (a : Addr8) (s : State) :
    exec (.putc a) s = .next ((s.emit [s.mem.read (ea8 a).toNat]).advance .putc) := rfl

theorem exec_putn (a : Addr8) (s : State) :
    exec (.putn a) s = .next ((s.emit (decimalText (s.mem.read (ea8 a).toNat))).advance .putn) := rfl

theorem exec_getc_byte {a : Addr8} {s : State} (h : s.input.pos < s.input.bytes.length) :
    exec (.getc a) s = .next ((State.memWrite { s with input := { s.input with pos := s.input.pos + 1 } } (ea8 a)
      s.input.bytes[s.input.pos]).advance .getc) := by
  show execGetc a s = _
  rw [execGetc, takeInput_of_byte h]

theorem exec_getc_end {a : Addr8} {s : State} (h : s.input.bytes.length ≤ s.input.pos) (he : s.input.ended = true) :
    exec (.getc a) s = .next ((s.memWrite (ea8 a) 0).advance .getc) := by
  show execGetc a s = _
  rw [execGetc, takeInput_of_end h he]

theorem exec_getc_wait {a : Addr8} {s : State} (h : s.inputReady = false) : exec (.getc a) s = .next s := by
  show execGetc a s = _
  rw [execGetc, takeInput_of_wait h]

theorem exec_poke16 (a : Addr16) (v : Byte) (s : State) :
    exec (.poke16 a v) s = .next ((s.memWrite a v).advance .poke16) := by
  simp [exec, execPoke16, poke16Within]

theorem exec_move16 (src dst : Addr16) (s : State) :
    exec (.move16 src dst) s = .next ((s.memWrite dst (s.mem.read src.toNat)).advance .move16) := by
  simp [exec, execMove16, move16Within, memRead_eq]

theorem exec_jmp16 (a : Addr16) (s : State) : exec (.jmp16 a) s = .next (s.commitPc (.abs16 a)) := by
  simp [exec, execJmp16, jmp16Within]

theorem exec_jz16 (a : Addr16) (c : Addr8) (s : State) :
    exec (.jz16 a c) s = .next (s.commitPc (if s.mem.read c.toNat = 0 then .abs16 a else .seq 4)) := by
  have h := branchIfZero_eq .jz16 (.abs16 a) c s
  rw [← show exec (.jz16 a c) s = branchIfZero .jz16 (.abs16 a) c s by simp [exec, execJz16, jz16Within]] at h
  exact h

theorem exec_run16 (a : Addr16) (s : State) : exec (.run16 a) s = callTo .run16 (.abs16 a) s := by
  simp [exec, execRun16, run16Within]

/-! ### What a next state of exec can be -/

/-- Everything a next state of exec can be, by shape; each shape names the instructions that have it. -/
inductive ExecEffect (i : Instr) (s : State) : State → Prop
  /-- A fault of phase P7 or of an opcode above the table is taken. -/
  | fault (k : FaultKind) (h1 : k ≠ .stackUnderflow) (h2 : k ≠ .instructionLimitExceeded) (h3 : k ≠ .ipOutOfBounds) :
      ExecEffect i s (s.raise k)
  /-- A GETC whose input is not there yet. -/
  | wait (hi : i.opcode = .getc) (hw : s.inputReady = false) : ExecEffect i s s
  /-- The normal end of the run. -/
  | halt (hi : i = .halt) (hsp : s.sp.val = 0) : ExecEffect i s s.halt
  /-- Only pc changes. -/
  | jump (hs : storeAddr i = none) (h1 : i.opcode ≠ .run) (h2 : i.opcode ≠ .run16) (h3 : i.opcode ≠ .ret)
      (h4 : i.opcode ≠ .halt) : ExecEffect i s (s.commitPc (pcSelect s i))
  /-- One data write. -/
  | store (a : Addr16) (v : Byte) (hs : storeAddr i = some a) :
      ExecEffect i s ((s.memWrite a v).commitPc (pcSelect s i))
  /-- One data write and OF. -/
  | storeFlag (hi : i.opcode = .add ∨ i.opcode = .sub ∨ i.opcode = .mul) (a : Addr16) (v : Byte) (b : Bool)
      (hs : storeAddr i = some a) : ExecEffect i s (((s.memWrite a v).setOf b).commitPc (pcSelect s i))
  /-- Bytes appended to OUT. -/
  | emit (hi : i.opcode = .putc ∨ i.opcode = .putn) (bs : List Byte) :
      ExecEffect i s ((s.emit bs).commitPc (pcSelect s i))
  /-- A byte taken from IN and stored. -/
  | input (hi : i.opcode = .getc) (hp : s.input.pos < s.input.bytes.length) (a : Addr16) (v : Byte)
      (hs : storeAddr i = some a) :
      ExecEffect i s ((State.memWrite { s with input := { s.input with pos := s.input.pos + 1 } } a v).commitPc
        (pcSelect s i))
  /-- A return address pushed. -/
  | call (hi : i.opcode = .run ∨ i.opcode = .run16) (hm : s.pc.toNat + i.opcode.width < Config.memorySize)
      (hr : s.sp.val < 64) :
      ExecEffect i s (State.commitPc { s with
        stk := s.stk.set s.sp.val (BitVec.ofNat 16 (s.pc.toNat + i.opcode.width)) hr
        sp := ⟨s.sp.val + 1, Nat.succ_lt_succ hr⟩ } (pcSelect s i))
  /-- The most recent entry popped. -/
  | ret (hi : i = .ret ∨ i = .halt) (h0 : s.sp.val ≠ 0) (hlt : s.sp.val - 1 < 64) :
      ExecEffect i s (State.commitPc { s with sp := ⟨s.sp.val - 1, Nat.lt_succ_of_lt hlt⟩ } (pcSelect s i))

theorem topEntry_eq {s : State} (hlt : s.sp.val - 1 < 64) : s.topEntry = s.stk[s.sp.val - 1] := by
  simp [State.topEntry, hlt]

theorem cell_eq_zero_iff (s : State) (c : Addr8) : s.cell c = 0 ↔ s.mem.read c.toNat = 0 := by
  rw [State.cell, ea8_toNat, ← BitVec.toNat_inj]; rfl

theorem callTo_effect {i : Instr} {s t : State} {target : PcSource} (hi : i.opcode = .run ∨ i.opcode = .run16)
    (ht : pcSelect s i = target) (h : callTo i.opcode target s = .next t) : ExecEffect i s t := by
  rcases callTo_cases i.opcode target s with ⟨-, hk⟩ | ⟨-, -, hk⟩ | ⟨hm, hr, hk⟩ <;> rw [hk] at h <;> cases h
  · exact .fault _ (by decide) (by decide) (by decide)
  · exact .fault _ (by decide) (by decide) (by decide)
  · subst ht; exact .call hi hm hr

theorem popAndResume_effect {i : Instr} {s t : State} (hi : i = .ret ∨ i = .halt) (h0 : s.sp.val ≠ 0)
    (h : popAndResume s = .next t) : ExecEffect i s t := by
  obtain ⟨hlt, hk⟩ := popAndResume_of_nonempty h0
  rw [hk] at h; cases h
  have hsel : pcSelect s i = .pop (s.stk[s.sp.val - 1]) := by
    rcases hi with rfl | rfl
    · simp [pcSelect, topEntry_eq hlt]
    · simp only [pcSelect, topEntry_eq hlt]; rw [if_pos (by omega)]
  have := ExecEffect.ret hi h0 hlt
  rw [hsel] at this; exact this

theorem exec_effect {i : Instr} {s t : State} (h : exec i s = .next t) : ExecEffect i s t := by
  cases i
  case nop => cases h; exact .jump rfl (by decide) (by decide) (by decide) (by decide)
  case jmp a => cases h; exact .jump rfl (by simp [Instr.opcode]) (by simp [Instr.opcode]) (by simp [Instr.opcode]) (by simp [Instr.opcode])
  case poke | move | not | nand | and | or | xor | inc | dec | cmp | shl | shr => cases h; exact .store _ _ rfl
  case add a b d => cases h; exact .storeFlag (.inl rfl) _ _ _ rfl
  case sub a b d => cases h; exact .storeFlag (.inr (.inl rfl)) _ _ _ rfl
  case mul a b d => cases h; exact .storeFlag (.inr (.inr rfl)) _ _ _ rfl
  case putc a => cases h; exact .emit (.inl rfl) _
  case putn a => cases h; exact .emit (.inr rfl) _
  case reserved1F | reserved20 | reserved30 | reserved34 | reserved36 | unassigned37 | unassigned38 | unassigned40 |
    unassigned80 => cases h; exact .fault _ (by decide) (by decide) (by decide)
  case comment len =>
    cases hf : hasOperands s.pc.toNat (2 + len.toNat)
    · rw [exec_comment_overruns hf] at h; cases h; exact .fault _ (by decide) (by decide) (by decide)
    · rw [exec_comment_fits hf] at h; cases h
      exact .jump rfl (by simp [Instr.opcode]) (by simp [Instr.opcode]) (by simp [Instr.opcode]) (by simp [Instr.opcode])
  case div a b d =>
    by_cases hb : s.mem.read (ea8 b).toNat = 0
    · rw [exec_div_zero hb] at h; cases h; exact .fault _ (by decide) (by decide) (by decide)
    · rw [exec_div_nonzero hb] at h; cases h; exact .store _ _ rfl
  case jz a c =>
    rw [exec_jz] at h; cases h
    have e : pcSelect s (.jz a c) = if s.mem.read c.toNat = 0 then .abs8 a else .seq 3 := by
      simp only [pcSelect, cell_eq_zero_iff]
    rw [← e]
    exact .jump rfl (by simp [Instr.opcode]) (by simp [Instr.opcode]) (by simp [Instr.opcode]) (by simp [Instr.opcode])
  case jz16 a c =>
    rw [exec_jz16] at h; cases h
    have e : pcSelect s (.jz16 a c) = if s.mem.read c.toNat = 0 then .abs16 a else .seq 4 := by
      simp only [pcSelect, cell_eq_zero_iff]
    rw [← e]
    exact .jump rfl (by simp [Instr.opcode]) (by simp [Instr.opcode]) (by simp [Instr.opcode]) (by simp [Instr.opcode])
  case jmp16 a =>
    rw [exec_jmp16] at h; cases h
    exact .jump rfl (by simp [Instr.opcode]) (by simp [Instr.opcode]) (by simp [Instr.opcode]) (by simp [Instr.opcode])
  case poke16 a v => rw [exec_poke16] at h; cases h; exact .store _ _ rfl
  case move16 src dst => rw [exec_move16] at h; cases h; exact .store _ _ rfl
  case run a => rw [exec_run] at h; exact callTo_effect (.inl rfl) rfl h
  case run16 a => rw [exec_run16] at h; exact callTo_effect (.inr rfl) rfl h
  case ret =>
    by_cases h0 : s.sp.val = 0
    · rw [exec_ret_empty h0] at h; cases h; exact .fault _ (by decide) (by decide) (by decide)
    · rw [exec_ret_nonempty h0] at h; exact popAndResume_effect (.inl rfl) h0 h
  case halt =>
    by_cases h0 : s.sp.val = 0
    · rw [exec_halt_empty h0] at h; cases h; exact .halt rfl h0
    · rw [exec_halt_nonempty h0] at h; exact popAndResume_effect (.inr rfl) h0 h
  case getc a =>
    by_cases hp : s.input.pos < s.input.bytes.length
    · rw [exec_getc_byte hp] at h; cases h; exact .input rfl hp _ _ rfl
    · cases he : s.input.ended
      · have hw : s.inputReady = false := by simp [State.inputReady, he]; omega
        rw [exec_getc_wait hw] at h; cases h; exact .wait rfl hw
      · rw [exec_getc_end (by omega) he] at h; cases h; exact .store _ _ rfl

/-- Every instruction answers a next state, whatever the state: nothing in exec stops the model. -/
theorem exec_answers_next (i : Instr) (s : State) : ∃ t, exec i s = .next t := by
  cases i
  case comment len =>
    cases hf : hasOperands s.pc.toNat (2 + len.toNat)
    · exact ⟨_, exec_comment_overruns hf⟩
    · exact ⟨_, exec_comment_fits hf⟩
  case div a b d =>
    by_cases hb : s.mem.read (ea8 b).toNat = 0
    · exact ⟨_, exec_div_zero hb⟩
    · exact ⟨_, exec_div_nonzero hb⟩
  case jz a c => exact ⟨_, exec_jz a c s⟩
  case jz16 a c => exact ⟨_, exec_jz16 a c s⟩
  case jmp16 a => exact ⟨_, exec_jmp16 a s⟩
  case poke16 a v => exact ⟨_, exec_poke16 a v s⟩
  case move16 src dst => exact ⟨_, exec_move16 src dst s⟩
  case run a =>
    rw [exec_run]
    rcases callTo_cases .run (.abs8 a) s with ⟨-, hk⟩ | ⟨-, -, hk⟩ | ⟨-, _, hk⟩ <;> exact ⟨_, hk⟩
  case run16 a =>
    rw [exec_run16]
    rcases callTo_cases .run16 (.abs16 a) s with ⟨-, hk⟩ | ⟨-, -, hk⟩ | ⟨-, _, hk⟩ <;> exact ⟨_, hk⟩
  case ret =>
    by_cases h0 : s.sp.val = 0
    · exact ⟨_, exec_ret_empty h0⟩
    · obtain ⟨hlt, hk⟩ := popAndResume_of_nonempty h0; exact ⟨_, (exec_ret_nonempty h0).trans hk⟩
  case halt =>
    by_cases h0 : s.sp.val = 0
    · exact ⟨_, exec_halt_empty h0⟩
    · obtain ⟨hlt, hk⟩ := popAndResume_of_nonempty h0; exact ⟨_, (exec_halt_nonempty h0).trans hk⟩
  case getc a =>
    by_cases hp : s.input.pos < s.input.bytes.length
    · exact ⟨_, exec_getc_byte hp⟩
    · cases he : s.input.ended
      · exact ⟨_, exec_getc_wait (by simp [State.inputReady, he]; omega)⟩
      · exact ⟨_, exec_getc_end (by omega) he⟩
  all_goals exact ⟨_, rfl⟩

end Sys2Proof.Machine
end

