-- ==== Sys2Proof/Laws/PerInstr.lean ====
section
/-! SUPPORT. Two families, one lemma per constructor: the fixed part of an encoding is as long as the dispatch table's width
says (30_encoding.md R72, R80), and the first byte of an encoding selects the instruction's own row (R78, R79). -/

namespace Sys2Proof.Laws

/-- The fixed part of the encoding is W bytes long. -/
def EncodedWidth.Statement (i : Instr) : Prop := (encode i).length = i.opcode.width

/-- B0 of a well-formed instruction's encoding selects its row. -/
def OpcodeSelected.Statement (i : Instr) : Prop :=
  i.wellFormed = true → (encode i).head?.bind lookupOpcode = some i.opcode

/-! ### EncodedWidth -/

theorem EncodedWidth.nop : EncodedWidth.Statement (.nop) := rfl
theorem EncodedWidth.poke (a v : Byte) : EncodedWidth.Statement (.poke a v) := rfl
theorem EncodedWidth.move (src dst : Byte) : EncodedWidth.Statement (.move src dst) := rfl
theorem EncodedWidth.not (a : Byte) : EncodedWidth.Statement (.not a) := rfl
theorem EncodedWidth.nand (a b d : Byte) : EncodedWidth.Statement (.nand a b d) := rfl
theorem EncodedWidth.jmp (a : Byte) : EncodedWidth.Statement (.jmp a) := rfl
theorem EncodedWidth.jz (a c : Byte) : EncodedWidth.Statement (.jz a c) := rfl
theorem EncodedWidth.run (a : Byte) : EncodedWidth.Statement (.run a) := rfl
theorem EncodedWidth.halt : EncodedWidth.Statement (.halt) := rfl
theorem EncodedWidth.and (a b d : Byte) : EncodedWidth.Statement (.and a b d) := rfl
theorem EncodedWidth.or (a b d : Byte) : EncodedWidth.Statement (.or a b d) := rfl
theorem EncodedWidth.xor (a b d : Byte) : EncodedWidth.Statement (.xor a b d) := rfl
theorem EncodedWidth.inc (a : Byte) : EncodedWidth.Statement (.inc a) := rfl
theorem EncodedWidth.dec (a : Byte) : EncodedWidth.Statement (.dec a) := rfl
theorem EncodedWidth.cmp (a b d : Byte) : EncodedWidth.Statement (.cmp a b d) := rfl
theorem EncodedWidth.comment (len : Byte) : EncodedWidth.Statement (.comment len) := rfl
theorem EncodedWidth.putc (a : Byte) : EncodedWidth.Statement (.putc a) := rfl
theorem EncodedWidth.putn (a : Byte) : EncodedWidth.Statement (.putn a) := rfl
theorem EncodedWidth.getc (a : Byte) : EncodedWidth.Statement (.getc a) := rfl
theorem EncodedWidth.ret : EncodedWidth.Statement (.ret) := rfl
theorem EncodedWidth.add (a b d : Byte) : EncodedWidth.Statement (.add a b d) := rfl
theorem EncodedWidth.sub (a b d : Byte) : EncodedWidth.Statement (.sub a b d) := rfl
theorem EncodedWidth.mul (a b d : Byte) : EncodedWidth.Statement (.mul a b d) := rfl
theorem EncodedWidth.div (a b d : Byte) : EncodedWidth.Statement (.div a b d) := rfl
theorem EncodedWidth.shl (a b d : Byte) : EncodedWidth.Statement (.shl a b d) := rfl
theorem EncodedWidth.shr (a b d : Byte) : EncodedWidth.Statement (.shr a b d) := rfl
theorem EncodedWidth.poke16 (a : Addr16) (v : Byte) : EncodedWidth.Statement (.poke16 a v) := rfl
theorem EncodedWidth.move16 (src dst : Addr16) : EncodedWidth.Statement (.move16 src dst) := rfl
theorem EncodedWidth.jmp16 (a : Addr16) : EncodedWidth.Statement (.jmp16 a) := rfl
theorem EncodedWidth.jz16 (a : Addr16) (c : Addr8) : EncodedWidth.Statement (.jz16 a c) := rfl
theorem EncodedWidth.run16 (a : Addr16) : EncodedWidth.Statement (.run16 a) := rfl
theorem EncodedWidth.reserved1F : EncodedWidth.Statement (.reserved1F) := rfl
theorem EncodedWidth.reserved20 (op : Byte) : EncodedWidth.Statement (.reserved20 op) := rfl
theorem EncodedWidth.reserved30 (op : Byte) : EncodedWidth.Statement (.reserved30 op) := rfl
theorem EncodedWidth.reserved34 (op : Byte) : EncodedWidth.Statement (.reserved34 op) := rfl
theorem EncodedWidth.reserved36 : EncodedWidth.Statement (.reserved36) := rfl
theorem EncodedWidth.unassigned37 : EncodedWidth.Statement (.unassigned37) := rfl
theorem EncodedWidth.unassigned38 (op : Byte) : EncodedWidth.Statement (.unassigned38 op) := rfl
theorem EncodedWidth.unassigned40 (op : Byte) : EncodedWidth.Statement (.unassigned40 op) := rfl
theorem EncodedWidth.unassigned80 (op : Byte) : EncodedWidth.Statement (.unassigned80 op) := rfl

/-! ### OpcodeSelected -/

theorem OpcodeSelected.nop : OpcodeSelected.Statement (.nop) := fun _ => rfl
theorem OpcodeSelected.poke (a v : Byte) : OpcodeSelected.Statement (.poke a v) := fun _ => rfl
theorem OpcodeSelected.move (src dst : Byte) : OpcodeSelected.Statement (.move src dst) := fun _ => rfl
theorem OpcodeSelected.not (a : Byte) : OpcodeSelected.Statement (.not a) := fun _ => rfl
theorem OpcodeSelected.nand (a b d : Byte) : OpcodeSelected.Statement (.nand a b d) := fun _ => rfl
theorem OpcodeSelected.jmp (a : Byte) : OpcodeSelected.Statement (.jmp a) := fun _ => rfl
theorem OpcodeSelected.jz (a c : Byte) : OpcodeSelected.Statement (.jz a c) := fun _ => rfl
theorem OpcodeSelected.run (a : Byte) : OpcodeSelected.Statement (.run a) := fun _ => rfl
theorem OpcodeSelected.halt : OpcodeSelected.Statement (.halt) := fun _ => rfl
theorem OpcodeSelected.and (a b d : Byte) : OpcodeSelected.Statement (.and a b d) := fun _ => rfl
theorem OpcodeSelected.or (a b d : Byte) : OpcodeSelected.Statement (.or a b d) := fun _ => rfl
theorem OpcodeSelected.xor (a b d : Byte) : OpcodeSelected.Statement (.xor a b d) := fun _ => rfl
theorem OpcodeSelected.inc (a : Byte) : OpcodeSelected.Statement (.inc a) := fun _ => rfl
theorem OpcodeSelected.dec (a : Byte) : OpcodeSelected.Statement (.dec a) := fun _ => rfl
theorem OpcodeSelected.cmp (a b d : Byte) : OpcodeSelected.Statement (.cmp a b d) := fun _ => rfl
theorem OpcodeSelected.comment (len : Byte) : OpcodeSelected.Statement (.comment len) := fun _ => rfl
theorem OpcodeSelected.putc (a : Byte) : OpcodeSelected.Statement (.putc a) := fun _ => rfl
theorem OpcodeSelected.putn (a : Byte) : OpcodeSelected.Statement (.putn a) := fun _ => rfl
theorem OpcodeSelected.getc (a : Byte) : OpcodeSelected.Statement (.getc a) := fun _ => rfl
theorem OpcodeSelected.ret : OpcodeSelected.Statement (.ret) := fun _ => rfl
theorem OpcodeSelected.add (a b d : Byte) : OpcodeSelected.Statement (.add a b d) := fun _ => rfl
theorem OpcodeSelected.sub (a b d : Byte) : OpcodeSelected.Statement (.sub a b d) := fun _ => rfl
theorem OpcodeSelected.mul (a b d : Byte) : OpcodeSelected.Statement (.mul a b d) := fun _ => rfl
theorem OpcodeSelected.div (a b d : Byte) : OpcodeSelected.Statement (.div a b d) := fun _ => rfl
theorem OpcodeSelected.shl (a b d : Byte) : OpcodeSelected.Statement (.shl a b d) := fun _ => rfl
theorem OpcodeSelected.shr (a b d : Byte) : OpcodeSelected.Statement (.shr a b d) := fun _ => rfl
theorem OpcodeSelected.poke16 (a : Addr16) (v : Byte) : OpcodeSelected.Statement (.poke16 a v) := fun _ => rfl
theorem OpcodeSelected.move16 (src dst : Addr16) : OpcodeSelected.Statement (.move16 src dst) := fun _ => rfl
theorem OpcodeSelected.jmp16 (a : Addr16) : OpcodeSelected.Statement (.jmp16 a) := fun _ => rfl
theorem OpcodeSelected.jz16 (a : Addr16) (c : Addr8) : OpcodeSelected.Statement (.jz16 a c) := fun _ => rfl
theorem OpcodeSelected.run16 (a : Addr16) : OpcodeSelected.Statement (.run16 a) := fun _ => rfl
theorem OpcodeSelected.reserved1F : OpcodeSelected.Statement (.reserved1F) := fun _ => rfl
theorem OpcodeSelected.reserved20 (op : Byte) : OpcodeSelected.Statement (.reserved20 op) := by
  revert op; unfold OpcodeSelected.Statement; decide
theorem OpcodeSelected.reserved30 (op : Byte) : OpcodeSelected.Statement (.reserved30 op) := by
  revert op; unfold OpcodeSelected.Statement; decide
theorem OpcodeSelected.reserved34 (op : Byte) : OpcodeSelected.Statement (.reserved34 op) := by
  revert op; unfold OpcodeSelected.Statement; decide
theorem OpcodeSelected.reserved36 : OpcodeSelected.Statement (.reserved36) := fun _ => rfl
theorem OpcodeSelected.unassigned37 : OpcodeSelected.Statement (.unassigned37) := fun _ => rfl
theorem OpcodeSelected.unassigned38 (op : Byte) : OpcodeSelected.Statement (.unassigned38 op) := by
  revert op; unfold OpcodeSelected.Statement; decide
theorem OpcodeSelected.unassigned40 (op : Byte) : OpcodeSelected.Statement (.unassigned40 op) := by
  revert op; unfold OpcodeSelected.Statement; decide
theorem OpcodeSelected.unassigned80 (op : Byte) : OpcodeSelected.Statement (.unassigned80 op) := by
  revert op; unfold OpcodeSelected.Statement; decide

end Sys2Proof.Laws
end

