-- ==== Sys2Proof/Laws/Phases.lean ====
section
/-! SUPPORT. What a step can do, said once (40_engine_step.md R101): the two checks before the fetch, the three results of
the fetch, the hold, or exec of the fetched instruction. -/

namespace Sys2Proof.Machine

theorem latch_succ (s : State) (n : Nat) :
    s.latch (n + 1) = s.mem.read s.pc.toNat :: (List.range n).map (fun k => s.mem.read (s.pc.toNat + (k + 1))) := by
  simp [State.latch, List.range_succ_eq_map, Function.comp_def]

/-- The fetch below MEMORY_SIZE: the opcode's row, and TruncatedInstruction exactly when the width check fails (R117). -/
theorem fetchInstr_cases (s : State) :
    ∃ op, lookupOpcode (s.mem.read s.pc.toNat) = some op ∧
      ((hasOperands s.pc.toNat op.width = false ∧ s.fetchInstr = .error .truncatedInstruction) ∨
       (hasOperands s.pc.toNat op.width = true ∧
        ∃ i, s.fetchInstr = .ok i ∧ i.opcode = op ∧ decode (s.latch op.width) = .ok (i, []))) := by
  obtain ⟨op, hop⟩ := Option.isSome_iff_exists.mp (lookupOpcode_isSome (s.mem.read s.pc.toNat))
  refine ⟨op, hop, ?_⟩
  cases hh : hasOperands s.pc.toNat op.width
  · exact .inl ⟨rfl, by simp [State.fetchInstr, hop, hh]⟩
  · obtain ⟨n, hn⟩ : ∃ n, op.width = n + 1 := ⟨op.width - 1, by have := width_pos op; omega⟩
    obtain ⟨i, hi, hio⟩ := decodeOperands_ok op (s.mem.read s.pc.toNat)
      ((List.range n).map (fun k => s.mem.read (s.pc.toNat + (k + 1)))) (by simp [hn])
    have hd : decode (s.latch op.width) = .ok (i, []) := by rw [hn, latch_succ]; simp [decode, hop, hi]
    exact .inr ⟨rfl, i, by simp [State.fetchInstr, hop, hh, hd], hio, hd⟩

/-- R101 for a running state: exactly one of these. -/
theorem runPhases_cases (limit : Nat) (ex : Instr → State → Host.Outcome State Fault Refusal) (s : State) :
    (limit < s.icount.toNat + 1 ∧ runPhases limit ex s = .next (s.count.raise .instructionLimitExceeded)) ∨
    (s.icount.toNat + 1 ≤ limit ∧ Config.memorySize ≤ s.pc.toNat ∧
      runPhases limit ex s = .next (s.count.raise .ipOutOfBounds)) ∨
    (s.icount.toNat + 1 ≤ limit ∧ s.pc.toNat < Config.memorySize ∧
      s.fetchInstr = .error .truncatedInstruction ∧
      runPhases limit ex s = .next (s.count.raise .truncatedInstruction)) ∨
    (∃ i, s.icount.toNat + 1 ≤ limit ∧ s.pc.toNat < Config.memorySize ∧ s.fetchInstr = .ok i ∧
      s.holds i = true ∧ runPhases limit ex s = .next s) ∨
    (∃ i, s.icount.toNat + 1 ≤ limit ∧ s.pc.toNat < Config.memorySize ∧ s.fetchInstr = .ok i ∧
      s.holds i = false ∧ runPhases limit ex s = ex i s.count) := by
  by_cases h1 : limit < s.icount.toNat + 1
  · exact .inl ⟨h1, by simp [runPhases, h1, raiseFault_eq]⟩
  by_cases h2 : Config.memorySize ≤ s.pc.toNat
  · exact .inr (.inl ⟨by omega, h2, by simp [runPhases, h1, h2, raiseFault_eq]⟩)
  obtain ⟨op, -, ⟨-, hf⟩ | ⟨-, i, hf, -, -⟩⟩ := fetchInstr_cases s
  · exact .inr (.inr (.inl ⟨by omega, by omega, hf, by simp [runPhases, h1, h2, hf, raiseFault_eq]⟩))
  · cases hh : s.holds i
    · exact .inr (.inr (.inr (.inr ⟨i, by omega, by omega, hf, hh, by simp [runPhases, h1, h2, hf, hh]⟩)))
    · exact .inr (.inr (.inr (.inl ⟨i, by omega, by omega, hf, hh, by simp [runPhases, h1, h2, hf, hh]⟩)))

theorem step_of_running {s : State} (h : s.runState = .running) : step s = runPhases Config.instrLimit exec s := by
  simp [step, stepWithin, h]

/-- A step that answers a next state started in Running (R102). -/
theorem running_of_step {s t : State} (h : step s = .next t) : s.runState = .running := by
  unfold step stepWithin at h
  split at h <;> first | assumption | simp at h

/-- The environment cannot answer Input() (R102). -/
theorem inputReady_eq_false_iff (s : State) :
    s.inputReady = false ↔ s.input.bytes.length ≤ s.input.pos ∧ s.input.ended = false := by
  simp [State.inputReady]

theorem opcode_eq_getc_iff (i : Instr) : i.opcode = .getc ↔ ∃ a, i = .getc a := by
  cases i <;> simp [Instr.opcode]

/-- P1's increment does not wrap while the counter is within the ceiling (R24). -/
theorem count_toNat {s : State} (h : s.icount.toNat ≤ Config.instrLimit) :
    s.count.icount.toNat = s.icount.toNat + 1 := by
  simp only [count_icount, BitVec.toNat_ofNat]
  apply Nat.mod_eq_of_lt
  simp only [Config.instrLimit] at h
  omega

/-- Everything a step that answers a next state can have done. -/
theorem step_cases {s t : State} (h : step s = .next t) : s.runState = .running ∧
    ((Config.instrLimit < s.icount.toNat + 1 ∧ t = s.count.raise .instructionLimitExceeded) ∨
     (s.icount.toNat + 1 ≤ Config.instrLimit ∧ Config.memorySize ≤ s.pc.toNat ∧ t = s.count.raise .ipOutOfBounds) ∨
     (s.icount.toNat + 1 ≤ Config.instrLimit ∧ s.pc.toNat < Config.memorySize ∧
       s.fetchInstr = .error .truncatedInstruction ∧ t = s.count.raise .truncatedInstruction) ∨
     (∃ i, s.icount.toNat + 1 ≤ Config.instrLimit ∧ s.pc.toNat < Config.memorySize ∧ s.fetchInstr = .ok i ∧
       i.opcode = .getc ∧ s.inputReady = false ∧ t = s) ∨
     (∃ i, s.icount.toNat + 1 ≤ Config.instrLimit ∧ s.pc.toNat < Config.memorySize ∧ s.fetchInstr = .ok i ∧
       ¬ (i.opcode = .getc ∧ s.inputReady = false) ∧ exec i s.count = .next t)) := by
  have hr := running_of_step h
  refine ⟨hr, ?_⟩
  rw [step_of_running hr] at h
  rcases runPhases_cases Config.instrLimit exec s with
    ⟨h1, e⟩ | ⟨h1, h2, e⟩ | ⟨h1, h2, h3, e⟩ | ⟨j, h1, h2, h3, h4, e⟩ | ⟨j, h1, h2, h3, h4, e⟩ <;> rw [e] at h
  · cases h; exact .inl ⟨h1, rfl⟩
  · cases h; exact .inr (.inl ⟨h1, h2, rfl⟩)
  · cases h; exact .inr (.inr (.inl ⟨h1, h2, h3, rfl⟩))
  · cases h
    refine .inr (.inr (.inr (.inl ⟨j, h1, h2, h3, ?_⟩)))
    simpa [State.holds] using h4
  · refine .inr (.inr (.inr (.inr ⟨j, h1, h2, h3, ?_, h⟩)))
    intro ⟨a, b⟩
    simp [State.holds, a, b] at h4

end Sys2Proof.Machine
end

