-- ==== Sys2Proof/Tests/Slice0.lean ====
section
/-! SUPPORT. The model's own tests: the ill-formed terms that WellFormed refuses, a word of every row of the opcode table
written out from the spec's encoding, single steps from spec/95_test_vectors.md, and a witness for every statement that has
hypotheses. Every expected value stands in the spec (the vector's id is in the docstring) or is worked out by hand from its
rules. -/

namespace Sys2Proof.Tests

open Sys2Proof Sys2Proof.Machine

/-! ## States -/

/-- A running state as the vectors of 95_test_vectors.md part 2 start from: ICOUNT = 10, SP = 0, the bytes at pc, and then the
listed cells. -/
def placed (pc : Nat) (code : List Byte) (cells : List Host.Cell) : State :=
  { State.reset with
    mem := cells.foldl (fun m c => m.write c.1 c.2) (Memory.writeBytes [] pc code)
    pc := BitVec.ofNat 32 pc
    icount := 10
    runState := .running }

/-- `placed` with `n` entries on the call stack, entry `k` being 0x0100 + k and the top one `top`. -/
def called (pc : Nat) (code : List Byte) (n : Nat) (top : Addr16) : State :=
  { placed pc code [] with
    stk := Vector.ofFn (fun k : Fin 64 => if k.val + 1 = n then top else BitVec.ofNat 16 (0x0100 + k.val))
    sp := Fin.ofNat 65 n }

/-- `placed` with an input. -/
def fed (pc : Nat) (code : List Byte) (bytes : List Byte) (pos : Nat) (ended : Bool) : State :=
  { placed pc code [(0x80, 0xEE)] with input := ⟨bytes, pos, ended⟩ }

/-- The next state of an outcome. -/
def nextOf : Host.Outcome State Fault Refusal → Option State
  | .next t => some t
  | .fault _ => none
  | .refused _ => none

/-- What `f` reads of the state after one step. -/
def after {α : Type} (s : State) (f : State → α) : Option α := (nextOf (step s)).map f

/-! ## WellFormed refuses -/

theorem test_wellFormed_reserved20_above : (Instr.reserved20 0x30).wellFormed = false := by decide
theorem test_wellFormed_reserved30_below : (Instr.reserved30 0x2F).wellFormed = false := by decide
theorem test_wellFormed_reserved34_above : (Instr.reserved34 0x36).wellFormed = false := by decide
theorem test_wellFormed_unassigned38_below : (Instr.unassigned38 0x37).wellFormed = false := by decide
theorem test_wellFormed_unassigned40_above : (Instr.unassigned40 0x80).wellFormed = false := by decide
theorem test_wellFormed_unassigned80_below : (Instr.unassigned80 0x7F).wellFormed = false := by decide

/-! ## Decoding: every row, words written out from R72, R74 to R76, R78 and opcode_table.json -/

theorem test_decode_data_movement :
    decode [0b00000000, 0xAA] = .ok (.nop, [0xAA]) ∧
    decode [0b00000001, 0x30, 0x7F] = .ok (.poke 0x30 0x7F, []) ∧
    decode [0b00000010, 0x20, 0x21] = .ok (.move 0x20 0x21, []) ∧
    decode [0b00001111, 0x02, 0x48, 0x69] = .ok (.comment 2, [0x48, 0x69]) := ⟨rfl, rfl, rfl, rfl⟩

theorem test_decode_logic :
    decode [0b00000011, 0x10] = .ok (.not 0x10, []) ∧
    decode [0b00000100, 0x10, 0x11, 0x12] = .ok (.nand 0x10 0x11 0x12, []) ∧
    decode [0b00001001, 0x10, 0x11, 0x12] = .ok (.and 0x10 0x11 0x12, []) ∧
    decode [0b00001010, 0x10, 0x11, 0x12] = .ok (.or 0x10 0x11 0x12, []) ∧
    decode [0b00001011, 0x10, 0x11, 0x12] = .ok (.xor 0x10 0x11 0x12, []) ∧
    decode [0b00001110, 0x10, 0x11, 0x12] = .ok (.cmp 0x10 0x11 0x12, []) ∧
    decode [0b00011000, 0x10, 0x11, 0x12] = .ok (.shl 0x10 0x11 0x12, []) ∧
    decode [0b00011001, 0x10, 0x11, 0x12] = .ok (.shr 0x10 0x11 0x12, []) :=
  ⟨rfl, rfl, rfl, rfl, rfl, rfl, rfl, rfl⟩

theorem test_decode_control :
    decode [0b00000101, 0x20] = .ok (.jmp 0x20, []) ∧
    decode [0b00000110, 0x0C, 0x80] = .ok (.jz 0x0C 0x80, []) ∧
    decode [0b00000111, 0x0C] = .ok (.run 0x0C, []) ∧
    decode [0b00001000] = .ok (.halt, []) ∧
    decode [0b00010011] = .ok (.ret, []) := ⟨rfl, rfl, rfl, rfl, rfl⟩

theorem test_decode_arithmetic :
    decode [0b00001100, 0x80] = .ok (.inc 0x80, []) ∧
    decode [0b00001101, 0x80] = .ok (.dec 0x80, []) ∧
    decode [0b00010100, 0x80, 0x81, 0x82] = .ok (.add 0x80 0x81 0x82, []) ∧
    decode [0b00010101, 0x80, 0x81, 0x83] = .ok (.sub 0x80 0x81 0x83, []) ∧
    decode [0b00010110, 0x80, 0x81, 0x82] = .ok (.mul 0x80 0x81 0x82, []) ∧
    decode [0b00010111, 0x80, 0x81, 0x82] = .ok (.div 0x80 0x81 0x82, []) := ⟨rfl, rfl, rfl, rfl, rfl, rfl⟩

theorem test_decode_io :
    decode [0b00010000, 0x40] = .ok (.putc 0x40, []) ∧
    decode [0b00010001, 0x40] = .ok (.putn 0x40, []) ∧
    decode [0b00010010, 0x80] = .ok (.getc 0x80, []) := ⟨rfl, rfl, rfl⟩

theorem test_decode_addr16 :
    decode [0b00011010, 0x12, 0x34, 0x07] = .ok (.poke16 0x1234 0x07, []) ∧
    decode [0b00011011, 0x12, 0x34, 0x02, 0x00] = .ok (.move16 0x1234 0x0200, []) ∧
    decode [0b00011100, 0x01, 0x00] = .ok (.jmp16 0x0100, []) ∧
    decode [0b00011101, 0x01, 0x00, 0x90] = .ok (.jz16 0x0100 0x90, []) ∧
    decode [0b00011110, 0x02, 0x00] = .ok (.run16 0x0200, []) := ⟨rfl, rfl, rfl, rfl, rfl⟩

theorem test_decode_not_an_instruction :
    decode [0b00011111] = .ok (.reserved1F, []) ∧
    decode [0b00100101] = .ok (.reserved20 0x25, []) ∧
    decode [0b00110011] = .ok (.reserved30 0x33, []) ∧
    decode [0b00110101] = .ok (.reserved34 0x35, []) ∧
    decode [0b00110110] = .ok (.reserved36, []) ∧
    decode [0b00110111] = .ok (.unassigned37, []) ∧
    decode [0b00111111] = .ok (.unassigned38 0x3F, []) ∧
    decode [0b01001000] = .ok (.unassigned40 0x48, []) ∧
    decode [0b11111111] = .ok (.unassigned80 0xFF, []) := ⟨rfl, rfl, rfl, rfl, rfl, rfl, rfl, rfl, rfl⟩

/-- Too few bytes are refused by name. -/
theorem test_decode_truncated :
    decode [] = .error .empty ∧ decode [0x01, 0x20] = .error .truncated ∧
    decode [0x1B, 0x12, 0x34, 0x02] = .error .truncated := ⟨rfl, rfl, rfl⟩

/-- The table's numbering: the first byte is bits 7..0, the next bits 15..8, and operand bytes the table leaves out are 0. -/
theorem test_decodeTableWord :
    decodeTableWord 32 0x83818015 = some (.sub 0x80 0x81 0x83) ∧
    decodeTableWord 40 0x000234121B = some (.move16 0x1234 0x0200) ∧
    decodeTableWord 8 0x1D = some (.jz16 0 0) := ⟨rfl, rfl, rfl⟩

theorem test_withFetchWord_runs_the_word :
    after (State.reset.withFetchWord 24 0x7F3001) (fun t => (t.mem.read 0x30, t.pc, t.icount)) = some (0x7F, 3, 1) := by
  decide

/-! ## Single steps -/

/-- M1 -/
theorem test_nop : after (placed 0x200 [0x00] []) (fun t => (t.pc, t.icount)) = some (0x201, 11) := by decide

/-- M2 -/
theorem test_poke : after (placed 0x200 [0x01, 0x30, 0x7F] [(0x30, 0xEE)]) (fun t => (t.mem.read 0x30, t.pc)) =
    some (0x7F, 0x203) := by decide

/-- M3: the operands were latched before the write over the instruction's own bytes. -/
theorem test_poke_own_operand : after (placed 0x10 [0x01, 0x11, 0x55] [])
    (fun t => (t.mem.read 0x10, t.mem.read 0x11, t.pc)) = some (0x01, 0x55, 0x13) := by decide

/-- M4 -/
theorem test_move : after (placed 0x200 [0x02, 0x20, 0x21] [(0x20, 0x7F)])
    (fun t => (t.mem.read 0x20, t.mem.read 0x21, t.pc)) = some (0x7F, 0x7F, 0x203) := by decide

/-- M8 -/
theorem test_comment_ends_at_last_byte : after (placed 65279 [0x0F, 0xFF] []) (fun t => (t.pc, t.runState)) =
    some (65536, .running) := by decide

/-- M9 -/
theorem test_comment_overruns : after (placed 65280 [0x0F, 0xFF] []) (fun t => (t.pc, t.fpc, t.fkind)) =
    some (65280, 65280, some .truncatedInstruction) := by decide

/-- L3 -/
theorem test_not : after (placed 0x200 [0x03, 0x10] [(0x10, 0x5A)]) (fun t => (t.mem.read 0x10, t.pc)) =
    some (0xA5, 0x202) := by decide

/-- L4 -/
theorem test_nand : after (placed 0x200 [0x04, 0x10, 0x11, 0x12] [(0x10, 0xF0), (0x11, 0x3C)])
    (fun t => (t.mem.read 0x12, t.pc)) = some (0xCF, 0x204) := by decide

/-- L7 -/
theorem test_and : after (placed 0x200 [0x09, 0x10, 0x11, 0x12] [(0x10, 0xF0), (0x11, 0x3C)])
    (fun t => t.mem.read 0x12) = some 0x30 := by decide

/-- L28: destination and first source are one cell. -/
theorem test_and_aliased : after (placed 0x200 [0x09, 0x10, 0x11, 0x10] [(0x10, 0xF0), (0x11, 0x3C)])
    (fun t => (t.mem.read 0x10, t.mem.read 0x11)) = some (0x30, 0x3C) := by decide

/-- L8 -/
theorem test_or : after (placed 0x200 [0x0A, 0x10, 0x11, 0x12] [(0x10, 0xF0), (0x11, 0x3C)])
    (fun t => t.mem.read 0x12) = some 0xFC := by decide

/-- L9 -/
theorem test_xor : after (placed 0x200 [0x0B, 0x10, 0x11, 0x12] [(0x10, 0xF0), (0x11, 0x3C)])
    (fun t => t.mem.read 0x12) = some 0xCC := by decide

/-- L11 -/
theorem test_cmp_equal : after (placed 0x200 [0x0E, 0x10, 0x11, 0x12] [(0x10, 7), (0x11, 7)])
    (fun t => t.mem.read 0x12) = some 1 := by decide

/-- L14, with the destination holding something before. -/
theorem test_cmp_unequal : after (placed 0x200 [0x0E, 0x10, 0x11, 0x12] [(0x10, 0xFF), (0x12, 0x55)])
    (fun t => t.mem.read 0x12) = some 0 := by decide

/-- L16 -/
theorem test_shl_count_nine : after (placed 0x200 [0x18, 0x10, 0x11, 0x12] [(0x10, 0x81), (0x11, 9)])
    (fun t => t.mem.read 0x12) = some 0x02 := by decide

/-- L20 -/
theorem test_shl_count_255 : after (placed 0x200 [0x18, 0x10, 0x11, 0x12] [(0x10, 0xFF), (0x11, 255)])
    (fun t => t.mem.read 0x12) = some 0x80 := by decide

/-- L23 -/
theorem test_shr_logical : after (placed 0x200 [0x19, 0x10, 0x11, 0x12] [(0x10, 0x81), (0x11, 15)])
    (fun t => t.mem.read 0x12) = some 0x01 := by decide

/-- L26 -/
theorem test_shr_count_eight : after (placed 0x200 [0x19, 0x10, 0x11, 0x12] [(0x10, 0xFF), (0x11, 8)])
    (fun t => t.mem.read 0x12) = some 0xFF := by decide

/-- K-a -/
theorem test_jmp : after (placed 3 [0x05, 0x20] []) (fun t => t.pc) = some 0x20 := by decide

/-- K-b -/
theorem test_jz_taken : after (placed 7 [0x06, 0x0C, 0x80] []) (fun t => t.pc) = some 0x0C := by decide

/-- K-d -/
theorem test_jz_falls_through : after (placed 7 [0x06, 0x0C, 0x80] [(0x80, 0xFF)]) (fun t => t.pc) = some 0x0A := by
  decide

/-- K-e -/
theorem test_run : after (placed 6 [0x07, 0x0C] []) (fun t => (t.stk[0], t.sp.val, t.pc)) = some (8, 1, 0x0C) := by
  decide

/-- K-g -/
theorem test_run_return_address_does_not_fit : after (placed 65534 [0x07, 0x10] [])
    (fun t => (t.fkind, t.sp.val, t.pc, t.fpc)) = some (some .invalidAddress, 0, 65534, 65534) := by decide

/-- K-h -/
theorem test_halt_ends_the_run : after (placed 5 [0x08] []) (fun t => (t.runState, t.pc, t.fkind)) =
    some (.haltedNormal, 5, none) := by decide

/-- K-i -/
theorem test_halt_returns : after (called 0x15 [0x08] 1 0x000A) (fun t => (t.runState, t.pc, t.sp.val)) =
    some (.running, 0x0A, 0) := by decide

/-- K-l -/
theorem test_ret_takes_the_most_recent : after (called 0x10 [0x13] 2 0x0008) (fun t => (t.pc, t.sp.val, t.stk[0])) =
    some (8, 1, 0x0100) := by decide

/-- K-k -/
theorem test_ret_empty : after (placed 0x10 [0x13] []) (fun t => (t.fkind, t.fpc, t.runState)) =
    some (some .retWithEmptyStack, 0x10, .haltedFault .retWithEmptyStack) := by decide

/-- A2, with OF = 1 before, which stays. -/
theorem test_inc_wraps_without_flag : after ((placed 0x200 [0x0C, 0x80] [(0x80, 255)]).setOf true)
    (fun t => (t.mem.read 0x80, t.of, t.pc)) = some (0, true, 0x202) := by decide

/-- A4 -/
theorem test_dec_wraps_without_flag : after (placed 0x200 [0x0D, 0x80] []) (fun t => (t.mem.read 0x80, t.of)) =
    some (255, false) := by decide

/-- A5 -/
theorem test_add_carry : after (placed 0x200 [0x14, 0x80, 0x81, 0x82] [(0x80, 200), (0x81, 100)])
    (fun t => (t.mem.read 0x82, t.of, t.pc)) = some (44, true, 0x204) := by decide

/-- A10: OF is the carry, not a signed overflow. -/
theorem test_add_no_carry : after ((placed 0x200 [0x14, 0x80, 0x81, 0x82] [(0x80, 127), (0x81, 1)]).setOf true)
    (fun t => (t.mem.read 0x82, t.of)) = some (128, false) := by decide

/-- A12 -/
theorem test_sub_borrow : after (placed 0x200 [0x15, 0x80, 0x81, 0x82] [(0x80, 100), (0x81, 200)])
    (fun t => (t.mem.read 0x82, t.of)) = some (156, true) := by decide

/-- A17 -/
theorem test_sub_no_borrow : after ((placed 0x200 [0x15, 0x80, 0x81, 0x82] [(0x80, 200), (0x81, 100)]).setOf true)
    (fun t => (t.mem.read 0x82, t.of)) = some (100, false) := by decide

/-- A23: the full product counts, not its low nine bits. -/
theorem test_mul_full_product : after (placed 0x200 [0x16, 0x80, 0x81, 0x82] [(0x80, 16), (0x81, 32), (0x82, 9)])
    (fun t => (t.mem.read 0x82, t.of)) = some (0, true) := by decide

/-- A21 -/
theorem test_mul_fits : after ((placed 0x200 [0x16, 0x80, 0x81, 0x82] [(0x80, 15), (0x81, 17)]).setOf true)
    (fun t => (t.mem.read 0x82, t.of)) = some (255, false) := by decide

/-- A25 -/
theorem test_div : after ((placed 0x200 [0x17, 0x80, 0x81, 0x82] [(0x80, 200), (0x81, 3)]).setOf true)
    (fun t => (t.mem.read 0x82, t.of, t.pc)) = some (66, true, 0x204) := by decide

/-- A31 -/
theorem test_div_by_zero : after (placed 0x200 [0x17, 0x80, 0x81, 0x82] [(0x80, 200), (0x82, 9)])
    (fun t => (t.mem.read 0x82, t.fkind, t.fpc, t.pc, t.icount)) =
      some (9, some .divisionByZero, 0x200, 0x200, 11) := by decide

/-- I-c -/
theorem test_putc : after (placed 0x200 [0x10, 0x40] [(0x40, 0xFF)]) (fun t => (t.out, t.pc)) =
    some ([0xFF], 0x202) := by decide

/-- I-h -/
theorem test_putn_100 : after (placed 0x200 [0x11, 0x40] [(0x40, 100)]) (fun t => t.out) =
    some [0x31, 0x30, 0x30] := by decide

/-- I-d -/
theorem test_putn_0 : after (placed 0x200 [0x11, 0x40] []) (fun t => t.out) = some [0x30] := by decide

/-- I-k -/
theorem test_getc : after (fed 0x200 [0x12, 0x80] [0x68, 0x69] 0 true)
    (fun t => (t.mem.read 0x80, t.input.pos, t.pc)) = some (0x68, 1, 0x202) := by decide

/-- I-l -/
theorem test_getc_end_of_input : after (fed 0x200 [0x12, 0x80] [0x68, 0x69] 2 true)
    (fun t => (t.mem.read 0x80, t.input.pos, t.pc)) = some (0, 2, 0x202) := by decide

/-- W2 -/
theorem test_poke16 : after (placed 0x200 [0x1A, 0xFF, 0xFF, 0xAA] []) (fun t => (t.mem.read 0xFFFF, t.pc)) =
    some (0xAA, 0x204) := by decide

/-- W12: another ADDR_LIMIT. -/
theorem test_poke16_limited : (nextOf (poke16Within 65535 0xFFFF 0xAA (placed 0x200 [] []))).map
    (fun t => (t.mem.read 0xFFFF, t.fkind)) = some (0, some .invalidAddress) := by decide

/-- W5 -/
theorem test_move16 : after (placed 0x200 [0x1B, 0xFF, 0xFF, 0x00, 0x90] [(0xFFFF, 0x5A)])
    (fun t => (t.mem.read 0x90, t.pc)) = some (0x5A, 0x205) := by decide

/-- W13: another ADDR_LIMIT. -/
theorem test_move16_limited : (nextOf (move16Within 65535 0x0010 0xFFFF (placed 0x200 [] [(0x10, 0x77)]))).map
    (fun t => (t.mem.read 0xFFFF, t.fkind)) = some (0, some .invalidAddress) := by decide

/-- W6 -/
theorem test_jmp16 : after (placed 0x10 [0x1C, 0x01, 0x00] []) (fun t => t.pc) = some 0x100 := by decide

/-- W8 -/
theorem test_jz16_falls_through : after (placed 0x11 [0x1D, 0x01, 0x00, 0x90] [(0x90, 1)]) (fun t => t.pc) =
    some 0x15 := by decide

/-- W14: another ADDR_LIMIT; the target is checked although the branch would not be taken. -/
theorem test_jz16_limited : (nextOf (jz16Within 65535 0xFFFF 0x90 (placed 0x200 [] [(0x90, 1)]))).map
    (fun t => (t.pc, t.fkind)) = some (0x200, some .invalidAddress) := by decide

/-- W9 -/
theorem test_run16 : after (placed 5 [0x1E, 0x02, 0x00] []) (fun t => (t.stk[0], t.sp.val, t.pc)) =
    some (8, 1, 0x200) := by decide

/-- W11 -/
theorem test_run16_full : after (called 5 [0x1E, 0x02, 0x00] 64 0x0008) (fun t => (t.fkind, t.fpc, t.sp.val)) =
    some (some .stackOverflow, 5, 64) := by decide

/-- E2 to E6 -/
theorem test_unknown_opcodes :
    after (placed 0x200 [0x1F] []) (fun t => (t.fkind, t.fpc)) = some (some .unknownOpcode, 0x200) ∧
    after (placed 0x200 [0x36] []) (fun t => t.fkind) = some (some .unknownOpcode) ∧
    after (placed 0x200 [0x37] []) (fun t => t.fkind) = some (some .unknownOpcode) ∧
    after (placed 0x200 [0xFF] []) (fun t => t.fkind) = some (some .unknownOpcode) ∧
    after (placed 65535 [0x40] []) (fun t => t.fkind) = some (some .unknownOpcode) := by decide

/-- E1, E7 to E9 -/
theorem test_bounds :
    after (placed 65536 [] []) (fun t => (t.fkind, t.fpc, t.icount)) = some (some .ipOutOfBounds, 65536, 11) ∧
    after (placed 65535 [0x01] []) (fun t => (t.fkind, t.fpc)) = some (some .truncatedInstruction, 65535) ∧
    after (placed 65534 [0x01, 0x20] []) (fun t => (t.fkind, t.fpc)) = some (some .truncatedInstruction, 65534) ∧
    after (placed 65533 [0x01, 0x20, 0x33] []) (fun t => (t.mem.read 0x20, t.pc, t.fkind)) =
      some (0x33, 65536, none) := by decide

/-- E11 to E13 -/
theorem test_watchdog :
    after { placed 0x200 [0x08] [] with icount := 999999 } (fun t => (t.icount, t.runState)) =
      some (1000000, .haltedNormal) ∧
    after { placed 0x200 [0x08] [] with icount := 1000000 } (fun t => (t.icount, t.fkind, t.fpc)) =
      some (1000001, some .instructionLimitExceeded, 0x200) ∧
    after { placed 65536 [] [] with icount := 1000000 } (fun t => t.fkind) =
      some (some .instructionLimitExceeded) := by decide

/-- The validators of part 2.1. -/
theorem test_hasOperands :
    hasOperands 65535 1 = true ∧ hasOperands 65535 2 = false ∧ hasOperands 65531 5 = true ∧
    hasOperands 65532 5 = false ∧ hasOperands 65536 0 = false ∧ hasOperands 0 65537 = false ∧
    hasOperands 65279 257 = true ∧ hasOperands 5 4294967295 = false := by decide

/-- Z2, Z7 -/
theorem test_load_and_run_only_in_idle :
    (nextOf (State.reset.load [0xAA, 0xBB])).map (fun t => (t.mem.read 0, t.mem.read 1, t.mem.read 2, t.runState)) =
      some (0xAA, 0xBB, 0, .idle) ∧
    nextOf ((State.reset.halt).run 0) = none := by decide

/-! ## Witnesses: a concrete state and operands for every hypothesis of every statement that has some -/

theorem witness_OpcodeTableTilesAllBytes : decode [0x08, 0xAA] = .ok (.halt, [0xAA]) := rfl

theorem witness_EncodeThenDecode : (Instr.reserved20 0x2F).wellFormed = true ∧ (Instr.jz16 0x0100 0x90).wellFormed = true ∧
    (Instr.unassigned80 0x80).wellFormed = true := by decide

theorem witness_DecodeThenEncode : decode [0x1B, 0xFF, 0xFE, 0x00, 0x90, 0x55] = .ok (.move16 0xFFFE 0x0090, [0x55]) := rfl

theorem witness_HasOperandsMeansAllBytesInMemory : 0 < 5 ∧ hasOperands 65531 5 = true ∧ hasOperands 65532 5 = false := by
  decide

/-- POKE in the last place where it fits. -/
def lastPoke : State := placed 65533 [0x01, 0x20, 0x33] []

theorem witness_StepRunsDecodedInstruction :
    lastPoke.runState = .running ∧ lastPoke.icount.toNat + 1 ≤ Config.instrLimit ∧
    (Instr.poke 0x20 0x33).wellFormed = true ∧
    lastPoke.pc.toNat + (encode (.poke 0x20 0x33)).length ≤ Config.memorySize ∧
    (∀ k (h : k < (encode (.poke 0x20 0x33)).length),
      lastPoke.mem.read (lastPoke.pc.toNat + k) = (encode (.poke 0x20 0x33))[k]) ∧
    lastPoke.holds (.poke 0x20 0x33) = false := by decide

/-- A state at the ceiling, with pc outside memory as well. -/
def atCeiling : State := { placed 65536 [] [] with icount := 1000000 }

theorem witness_WatchdogStopsTheStep :
    atCeiling.runState = .running ∧ atCeiling.icount.toNat ≥ Config.instrLimit := by decide

theorem witness_PcOutsideMemoryFaults_outside :
    (placed 65536 [] []).runState = .running ∧ (placed 65536 [] []).icount.toNat + 1 ≤ Config.instrLimit ∧
    (placed 65536 [] []).pc.toNat ≥ Config.memorySize ∧ (placed 65536 [] []).Inv :=
  ⟨by decide, by decide, by decide,
   { memory := by decide
     pcBound := by decide
     counterBound := by decide
     counterOver := by decide
     faultRecord := fun k => by cases k <;> decide
     faultPc := fun k => by cases k <;> decide
     outOfBounds := fun k => by cases k <;> decide
     normalHalt := by decide
     noUnderflow := by decide
     inputBound := by decide
     idleFresh := by decide }⟩

theorem witness_PcOutsideMemoryFaults_reached :
    after lastPoke (fun t => (t.runState, t.pc.toNat)) = some (.running, 65536) ∧
    after (placed 65279 [0x0F, 0xFF] []) (fun t => (t.runState, t.pc.toNat)) = some (.running, 65536) := by decide

/-- The lowest byte above the table, at the last address. -/
def unknownAtTheEnd : State := placed 65535 [0x1F] []

theorem witness_OpcodeAboveTheTableFaults :
    unknownAtTheEnd.runState = .running ∧ unknownAtTheEnd.icount.toNat + 1 ≤ Config.instrLimit ∧
    unknownAtTheEnd.pc.toNat < Config.memorySize ∧
    (unknownAtTheEnd.mem.read unknownAtTheEnd.pc.toNat).toNat > 0x1E := by decide

/-- POKE one byte too late to fit. -/
def latePoke : State := placed 65534 [0x01, 0x20] []

theorem witness_TruncatedInstructionFaults_truncated :
    latePoke.runState = .running ∧ latePoke.icount.toNat + 1 ≤ Config.instrLimit ∧
    latePoke.pc.toNat < Config.memorySize ∧ (latePoke.mem.read latePoke.pc.toNat).toNat = 1 ∧ 1 ≤ 0x1E ∧
    latePoke.pc.toNat + widthByOpcodeByte.getD 1 0 > 65536 := by decide

theorem witness_TruncatedInstructionFaults_fits :
    lastPoke.runState = .running ∧ lastPoke.icount.toNat + 1 ≤ Config.instrLimit ∧
    lastPoke.pc.toNat < Config.memorySize ∧ (lastPoke.mem.read lastPoke.pc.toNat).toNat = 1 ∧
    lastPoke.pc.toNat + widthByOpcodeByte.getD 1 0 ≤ 65536 := by decide

theorem witness_TruncatedInstructionFaults_width_one :
    (placed 65535 [0x13] []).runState = .running ∧ (placed 65535 [0x13] []).icount.toNat + 1 ≤ Config.instrLimit ∧
    (placed 65535 [0x13] []).pc.toNat < Config.memorySize ∧
    ((placed 65535 [0x13] []).mem.read (placed 65535 [0x13] []).pc.toNat).toNat = 0x13 ∧
    widthByOpcodeByte.getD 0x13 0 = 1 := by decide

/-- A GETC whose input is open and exhausted. -/
def waiting : State := fed 0x200 [0x12, 0x80] [0x68] 1 false

theorem witness_InputWaitChangesNothing_waits :
    waiting.runState = .running ∧ waiting.icount.toNat + 1 ≤ Config.instrLimit ∧
    waiting.pc.toNat < Config.memorySize ∧ waiting.fetchInstr = .ok (.getc 0x80) ∧
    waiting.input.bytes.length ≤ waiting.input.pos ∧ waiting.input.ended = false :=
  ⟨by decide, by decide, by decide, rfl, by decide, by decide⟩

/-- The same GETC with its last byte ready. -/
def ready : State := fed 0x200 [0x12, 0x80] [0x68] 0 false

theorem witness_InputWaitChangesNothing_runs :
    ready.runState = .running ∧ ready.icount.toNat + 1 ≤ Config.instrLimit ∧
    ready.pc.toNat < Config.memorySize ∧ ready.fetchInstr = .ok (.getc 0x80) ∧
    ¬ (ready.input.bytes.length ≤ ready.input.pos ∧ ready.input.ended = false) :=
  ⟨by decide, by decide, by decide, rfl, by decide⟩

theorem witness_StepsOnlyWhileRunning :
    State.reset.runState = .idle ∧ State.reset.halt.halted ∧ (State.reset.raise .unknownOpcode).halted ∧
    lastPoke.runState = .running ∧ (nextOf (step lastPoke)).isSome = true ∧
    waiting.runState = .running ∧ nextOf (step waiting) = some waiting :=
  ⟨rfl, .inl rfl, .inr ⟨_, rfl⟩, rfl, by decide, rfl, by decide⟩

/-- DIV by zero (A31), whose step faults; also the hypotheses of FaultsExactlyWhenDue. -/
def dividing : State := placed 0x200 [0x17, 0x80, 0x81, 0x82] [(0x80, 200)]

theorem witness_FaultsArePrecise : dividing.runState = .running ∧
    after dividing (fun t => t.runState) = some (.haltedFault .divisionByZero) := by decide

theorem witness_FaultsExactlyWhenDue :
    dividing.runState = .running ∧ dividing.faultDue = some .divisionByZero ∧ lastPoke.faultDue = none ∧
    latePoke.faultDue = some .truncatedInstruction ∧ atCeiling.faultDue = some .instructionLimitExceeded ∧
    unknownAtTheEnd.faultDue = some .unknownOpcode := by decide

/-- K-g, K-f and K-k: the three faults of the call-stack instructions. -/
theorem witness_FaultsExactlyWhenDue_calls :
    (placed 65534 [0x07, 0x10] []).runState = .running ∧
    (placed 65534 [0x07, 0x10] []).faultDue = some .invalidAddress ∧
    (called 6 [0x07, 0x0C] 64 8).runState = .running ∧
    (called 6 [0x07, 0x0C] 64 8).faultDue = some .stackOverflow ∧
    (placed 0x10 [0x13] []).runState = .running ∧
    (placed 0x10 [0x13] []).faultDue = some .retWithEmptyStack := by decide

/-- The two bounds faults: pc outside memory (E1) and a COMMENT whose payload runs past the end (M9). -/
theorem witness_FaultsExactlyWhenDue_bounds :
    (placed 65536 [] []).runState = .running ∧ (placed 65536 [] []).faultDue = some .ipOutOfBounds ∧
    (placed 65280 [0x0F, 0xFF] []).runState = .running ∧
    (placed 65280 [0x0F, 0xFF] []).faultDue = some .truncatedInstruction ∧
    (placed 65279 [0x0F, 0xFF] []).faultDue = none := by decide

theorem witness_StackUnderflowIsNeverRaised : after (placed 0x10 [0x13] []) (fun t => t.fkind) =
    some (some .retWithEmptyStack) := by decide

/-- A running state in which pc, memory and ICOUNT are not at their reset values meets the invariant, and its step answers. -/
theorem witness_StepKeepsInvariant : lastPoke.Inv ∧ after lastPoke (fun t => t.pc) = some 65536 :=
  ⟨{ memory := by decide
     pcBound := by decide
     counterBound := by decide
     counterOver := by decide
     faultRecord := fun k => by cases k <;> decide
     faultPc := fun k => by cases k <;> decide
     outOfBounds := fun k => by cases k <;> decide
     normalHalt := by decide
     noUnderflow := by decide
     inputBound := by decide
     idleFresh := by decide }, by decide⟩

theorem witness_HostTransactionsKeepInvariant :
    (nextOf (State.reset.load [0x01, 0x00, 0x41])).isSome = true ∧ (nextOf (State.reset.run 0xFFFF)).isSome = true ∧
    (nextOf (State.reset.setInput [0x68])).isSome = true ∧ (nextOf State.reset.openInput).isSome = true ∧
    (nextOf (waiting.supplyByte 0x69)).isSome = true ∧ (nextOf waiting.endInput).isSome = true := by decide

theorem witness_OverflowFlagIsWrittenByArithmeticOnly_others :
    (∃ t, exec (.inc 0x80) dividing = .next t) ∧ (Instr.inc 0x80).opcode ≠ .add ∧ (Instr.inc 0x80).opcode ≠ .sub ∧
    (Instr.inc 0x80).opcode ≠ .mul := ⟨⟨_, rfl⟩, by decide, by decide, by decide⟩

theorem witness_OverflowFlagIsWrittenByArithmeticOnly_fault :
    after (dividing.setOf true) (fun t => (t.runState, t.of)) = some (.haltedFault .divisionByZero, true) := by decide

theorem witness_OverflowFlagIsWrittenByArithmeticOnly_record :
    (State.reset.halt.setOf true).outcome = some ⟨.haltedNormal, none, none, 0, true, 0⟩ := rfl

theorem witness_EveryStepCountsOnce :
    lastPoke.icount.toNat ≤ Config.instrLimit ∧ after lastPoke (fun t => t.icount) = some 11 ∧
    atCeiling.icount.toNat ≤ Config.instrLimit ∧ after atCeiling (fun t => t.icount) = some 1000001 ∧
    after waiting (fun t => t.icount) = some 10 := by decide

theorem witness_StreamsMoveOnlyByInputOutput :
    (∃ t, exec (.putn 0x80) dividing = .next t) ∧ (∃ t, exec (.getc 0x80) ready = .next t) ∧
    (∃ t, exec (.not 0x80) ready = .next t) ∧ (Instr.not 0x80).opcode ≠ .putc ∧ (Instr.not 0x80).opcode ≠ .putn ∧
    (Instr.not 0x80).opcode ≠ .getc := ⟨⟨_, rfl⟩, ⟨_, rfl⟩, ⟨_, rfl⟩, by decide, by decide, by decide⟩

theorem witness_OnlyTheStoredCellChanges :
    (∃ t, exec (.move 0x80 0xFF) dividing = .next t) ∧ (∀ a, storeAddr (.move 0x80 0xFF) = some a → 256 ≠ a.toNat) ∧
    (Instr.move 0x80 0xFF).opcode ≠ .poke16 ∧ (Instr.move 0x80 0xFF).opcode ≠ .move16 ∧ 256 ≤ 256 :=
  ⟨⟨_, rfl⟩, by intro a h; cases h; decide, by decide, by decide, by decide⟩

theorem witness_StackMovesOnlyByCallsAndReturns :
    (∃ t, exec (.run16 0x200) (called 5 [] 63 8) = .next t ∧ t.sp.val = 64) ∧
    (∃ t, exec .ret (called 5 [] 1 8) = .next t ∧ t.sp.val = 0) ∧ (∃ t, exec .halt (placed 5 [] []) = .next t) ∧
    (∃ t, exec (.jmp 0x20) (called 5 [] 64 8) = .next t) ∧
    State.reset.halt.outcome = some ⟨.haltedNormal, none, none, 0, false, 0⟩ :=
  ⟨⟨_, rfl, by decide⟩, ⟨_, rfl, by decide⟩, ⟨_, rfl⟩, ⟨_, rfl⟩, rfl⟩

theorem witness_PcMultiplexerSelects :
    (∃ t, exec (.jz 0x0C 0x80) (placed 7 [] []) = .next t ∧ t.pc = 0x0C) ∧ (∃ t, exec (.getc 0x80) waiting = .next t) ∧
    (∃ t, exec (.div 0x80 0x81 0x82) dividing = .next t) := ⟨⟨_, rfl, by decide⟩, ⟨_, rfl⟩, ⟨_, rfl⟩⟩

theorem witness_EveryRunEndsWithinTheLimit :
    atCeiling.runState = .running ∧ atCeiling.icount.toNat ≤ Config.instrLimit ∧ atCeiling.input.ended = true ∧
    lastPoke.runState = .running ∧ lastPoke.icount.toNat ≤ Config.instrLimit ∧ lastPoke.input.ended = true := by decide

theorem witness_OnlyHaltOnEmptyStackEndsNormally :
    after (placed 5 [0x08] []) (fun t => t.runState) = some .haltedNormal ∧
    after (called 0x15 [0x08] 1 0x000A) (fun t => t.runState) = some .running := by decide

/-- Two states that differ in a dead slot only. -/
theorem witness_DeadSlotsAreUnobservable :
    AgreeOnLive (called 5 [0x07, 0x0C] 1 8) { called 5 [0x07, 0x0C] 1 8 with stk := Vector.replicate 64 8 } ∧
    (called 5 [0x07, 0x0C] 1 8).stk ≠ Vector.replicate 64 8 := by
  refine ⟨⟨rfl, rfl, fun k h hk => ?_, rfl, rfl, rfl, rfl, rfl, rfl, rfl, rfl⟩, by decide⟩
  have h0 : k = 0 := by
    have : (called 5 [0x07, 0x0C] 1 8).sp.val = 1 := by decide
    omega
  subst h0
  rfl

theorem witness_CanonicalMemoriesThatReadAlikeAreEqual :
    Memory.wf [(0, 0x41), (65535, 0x08)] ∧ Memory.wf (Memory.write [(0, 0x41), (7, 1), (65535, 0x08)] 7 0) ∧
    Memory.write [(0, 0x41), (7, 1), (65535, 0x08)] 7 0 = [(0, 0x41), (65535, 0x08)] := by decide

theorem witness_PushAndPopAreLastInFirstOut :
    (State.reset.push 0x0008).isSome = true ∧ ((called 5 [] 63 8).push 0xFFFF).isSome = true ∧
    ((called 5 [] 64 8).push 0x0008).isNone = true ∧ ((called 5 [] 1 8).pop).isSome = true ∧
    ((called 5 [] 64 8).pop).isSome = true ∧ State.reset.pop.isNone = true := by decide

theorem witness_CommentSkipsItsPayload :
    (placed 65279 [] []).pc.toNat < Config.memorySize ∧ (placed 65279 [] []).pc.toNat + 2 + (0xFF : Byte).toNat ≤ 65536 ∧
    (placed 65280 [] []).pc.toNat < Config.memorySize ∧
    (placed 65280 [] []).pc.toNat + 2 + (0xFF : Byte).toNat > 65536 := by decide

theorem witness_DivStoresQuotientOrFaults :
    dividing.cell 0x81 = 0 ∧ dividing.cell 0x80 ≠ 0 ∧ (placed 0x200 [] [(0x81, 1)]).cell 0x81 = 1 := by decide

theorem witness_CallsPushTheReturnAddress :
    (called 65533 [] 63 8).pc.toNat + 2 < Config.memorySize ∧ (called 65533 [] 63 8).sp.val < Config.stackCapacity ∧
    (called 65532 [] 63 8).pc.toNat + 3 < Config.memorySize ∧ (called 65532 [] 63 8).sp.val < Config.stackCapacity := by
  decide

theorem witness_CallsFaultWithoutPushing :
    (called 65534 [] 64 8).pc.toNat + 2 ≥ Config.memorySize ∧ (called 65533 [] 64 8).pc.toNat + 2 < Config.memorySize ∧
    (called 65533 [] 64 8).sp.val = Config.stackCapacity ∧ (called 65533 [] 64 8).pc.toNat + 3 ≥ Config.memorySize ∧
    (called 65532 [] 64 8).pc.toNat + 3 < Config.memorySize ∧ (called 65532 [] 64 8).sp.val = Config.stackCapacity := by
  decide

theorem witness_ReturnsPopTheEntry : (called 0x10 [] 1 8).sp.val > 0 ∧ (called 0x10 [] 64 8).sp.val > 0 := by decide

theorem witness_HaltOnEmptyStackEndsTheRun : (placed 5 [0x08] []).sp.val = 0 := by decide

theorem witness_RetOnEmptyStackFaults : (placed 0x10 [0x13] []).sp.val = 0 := by decide

theorem witness_CallThenReturnComesBack :
    ((∃ a, Instr.run16 0x0200 = .run a) ∨ ∃ a, Instr.run16 0x0200 = .run16 a) ∧
    (Instr.halt = .ret ∨ Instr.halt = .halt) ∧
    (called 65532 [] 63 8).pc.toNat + (Instr.run16 0x0200).opcode.width < Config.memorySize ∧
    (called 65532 [] 63 8).sp.val < Config.stackCapacity :=
  ⟨.inr ⟨_, rfl⟩, .inr rfl, by decide, by decide⟩

theorem witness_GetcStoresTheNextByte_byte : ready.input.pos < ready.input.bytes.length := by decide

theorem witness_GetcStoresTheNextByte_end :
    (fed 0x200 [] [0x68] 1 true).input.bytes.length ≤ (fed 0x200 [] [0x68] 1 true).input.pos ∧
    (fed 0x200 [] [0x68] 1 true).input.ended = true := by decide

theorem witness_RejectedAddressChangesNothing : 65535 ≤ (0xFFFF : Addr16).toNat := by decide

theorem witness_ResetLeavesTheTableOfValues :
    dividing.hostReset = dividing.hostReset ∧ dividing.hostReset ≠ dividing ∧ State.reset = State.reset :=
  ⟨rfl, by decide, rfl⟩

theorem witness_LoadPlacesTheImage :
    State.reset.runState = .idle ∧ 1 < [(0xAA : Byte), 0xBB].length ∧ 1 < Config.memorySize ∧
    [(0xAA : Byte), 0xBB].length ≤ 2 ∧ dividing.runState ≠ .idle := by decide

theorem witness_RunStartsAtTheGivenAddress : State.reset.runState = .idle ∧ State.reset.halt.runState ≠ .idle := by decide

/-- The invariant holds after a normal halt and after a fault, and both records can be read. -/
theorem witness_OutcomeRecordReportsTheRun :
    latePoke.count.halt.Inv ∧ latePoke.count.halt.outcome.isSome = true ∧ latePoke.count.halt.runState = .haltedNormal ∧
    (latePoke.count.raise .truncatedInstruction).Inv ∧
    (latePoke.count.raise .truncatedInstruction).outcome.isSome = true ∧
    (latePoke.count.raise .truncatedInstruction).runState = .haltedFault .truncatedInstruction :=
  ⟨{ memory := by decide
     pcBound := by decide
     counterBound := by decide
     counterOver := by decide
     faultRecord := fun k => by cases k <;> decide
     faultPc := fun k => by cases k <;> decide
     outOfBounds := fun k => by cases k <;> decide
     normalHalt := by decide
     noUnderflow := by decide
     inputBound := by decide
     idleFresh := by decide }, by decide, by decide,
   { memory := by decide
     pcBound := by decide
     counterBound := by decide
     counterOver := by decide
     faultRecord := fun k => by cases k <;> decide
     faultPc := fun k => by cases k <;> decide
     outOfBounds := fun k => by cases k <;> decide
     normalHalt := by decide
     noUnderflow := by decide
     inputBound := by decide
     idleFresh := by decide }, by decide, by decide⟩

end Sys2Proof.Tests
end

/-! PROOF. 10_state.md, the flag and the call stack: which instructions write OF (R23) and SP (R25), that no instruction
reads OF, and that the host reads both in the outcome record (R41). -/

namespace Sys2Proof.Machine

/-! ## A fault taken, and the outcome record -/

/-- `State.raise` is the transition of R240. -/
theorem faultTaken_raise (s : State) (k : FaultKind) : FaultTaken s (s.raise k) k where
  runState := rfl
  fkind := rfl
  fpc := rfl
  pc := rfl
  memory := rfl
  stack := ⟨rfl, rfl⟩
  flag := rfl
  counter := rfl
  streams := ⟨rfl, rfl⟩

/-- Only `State.raise` enters Halted(Fault k) (R120, R240). -/
theorem eq_raise_of_exec {i : Instr} {s t : State} {k : FaultKind} (hs : s.runState = .running)
    (h : exec i s = .next t) (ht : t.runState = .haltedFault k) : t = s.raise k := by
  cases exec_effect h with
  | fault => cases ht; rfl
  | halt => cases ht
  | wait | jump | store | storeFlag | emit | input | call | ret => cases hs.symm.trans ht

theorem eq_raise_of_step {s t : State} {k : FaultKind} (h : step s = .next t) (ht : t.runState = .haltedFault k) :
    t = s.count.raise k := by
  obtain ⟨hs, ⟨-, rfl⟩ | ⟨-, -, rfl⟩ | ⟨-, -, -, rfl⟩ | ⟨i, -, -, -, -, -, rfl⟩ | ⟨i, -, -, -, -, he⟩⟩ := step_cases h
  · cases ht; rfl
  · cases ht; rfl
  · cases ht; rfl
  · cases hs.symm.trans ht
  · exact eq_raise_of_exec (s := s.count) hs he ht

/-- What the outcome record holds in every Halted state alike (R41). -/
theorem outcome_fields {s : State} {r : OutcomeRecord} (h : s.outcome = some r) :
    r.runState = s.runState ∧ r.icount = s.icount ∧ r.of = s.of ∧ r.sp = s.sp := by
  unfold State.outcome at h
  split at h <;> cases h <;> exact ⟨rfl, rfl, rfl, rfl⟩

/-! ## OF is written by ADD, SUB and MUL only -/

/-- The shape of ADD, SUB and MUL overwrites OF, so its old value leaves no trace. -/
theorem flaggedOp_setOf (op : Opcode) (f : Byte → Byte → Byte) (flag : Byte → Byte → Bool) (a b d : Addr8) (s : State)
    (old : Bool) : flaggedOp op f flag a b d (s.setOf old) = flaggedOp op f flag a b d s := rfl

theorem of_eq_of_exec {i : Instr} {s t : State} (h : exec i s = .next t) (hadd : i.opcode ≠ .add)
    (hsub : i.opcode ≠ .sub) (hmul : i.opcode ≠ .mul) : t.of = s.of := by
  cases exec_effect h with
  | storeFlag hi => simp [hadd, hsub, hmul] at hi
  | fault | wait | halt | jump | store | emit | input | call | ret => rfl

/-! ## No instruction reads OF -/

/-- A meaning that does not read OF: started with another flag, it ends as before but for the flag. -/
def IgnoresFlag (f : State → Host.Outcome State Fault Refusal) : Prop :=
  ∀ (s : State) (flag : Bool), OutcomesRelated AgreeButFlag (f s) (f (s.setOf flag))

theorem push_setOf (s : State) (flag : Bool) (v : Addr16) :
    (s.setOf flag).push v = (s.push v).map (fun t => t.setOf flag) := by
  by_cases h : s.sp.val < 64
  · rw [push_of_room h, push_of_room (s := s.setOf flag) h]; rfl
  · have hfull : s.sp.val = 64 := by have := s.sp.isLt; omega
    rw [push_of_full hfull, push_of_full (s := s.setOf flag) hfull]; rfl

theorem pop_setOf (s : State) (flag : Bool) :
    (s.setOf flag).pop = s.pop.map (fun p => (p.1, p.2.setOf flag)) := by
  by_cases h : s.sp.val = 0
  · rw [pop_of_empty h, pop_of_empty (s := s.setOf flag) h]; rfl
  · obtain ⟨_, e⟩ := pop_of_nonempty h
    obtain ⟨_, e'⟩ := pop_of_nonempty (s := s.setOf flag) h
    rw [e, e']; rfl

theorem takeInput_setOf (s : State) (flag : Bool) :
    (s.setOf flag).takeInput = s.takeInput.map (fun p => (p.1, p.2.setOf flag)) := by
  unfold State.takeInput
  rw [setOf_input]
  cases s.input.bytes[s.input.pos]?
  · cases s.input.ended <;> rfl
  · rfl

theorem raiseFault_ignoresFlag (k : FaultKind) : IgnoresFlag (raiseFault k) := fun _ _ => rfl

/-- A choice by a condition that does not read OF. -/
theorem IgnoresFlag.ite {c : State → Prop} [DecidablePred c] {f g : State → Host.Outcome State Fault Refusal}
    (hc : ∀ s flag, c (s.setOf flag) = c s) (hf : IgnoresFlag f) (hg : IgnoresFlag g) :
    IgnoresFlag (fun s => if c s then f s else g s) := by
  intro s flag
  simp only [hc]
  split
  · exact hf s flag
  · exact hg s flag

theorem branchIfZero_ignoresFlag (op : Opcode) (target : PcSource) (c : Addr8) :
    IgnoresFlag (branchIfZero op target c) :=
  .ite (c := fun s => s.memRead (ea8 c) = 0) (fun _ _ => rfl) (fun _ _ => rfl) (fun _ _ => rfl)

theorem callTo_ignoresFlag (op : Opcode) (target : PcSource) : IgnoresFlag (callTo op target) := by
  intro s flag
  simp only [callTo, setOf_pc, push_setOf]
  split
  · rfl
  · cases s.push _ <;> rfl

theorem popAndResume_ignoresFlag : IgnoresFlag popAndResume := by
  intro s flag
  simp only [popAndResume, pop_setOf]
  cases s.pop <;> rfl

theorem execGetc_ignoresFlag (a : Addr8) : IgnoresFlag (execGetc a) := by
  intro s flag
  simp only [execGetc, takeInput_setOf]
  cases s.takeInput <;> rfl

/-- R23: no instruction reads OF. The arms that branch are named; every other one is a straight line of updates, none of
which looks at OF. -/
theorem exec_ignoresFlag (i : Instr) : IgnoresFlag (exec i) := by
  cases i with
  | comment len =>
    exact .ite (c := fun s => hasOperands s.pc.toNat (2 + len.toNat) = true) (fun _ _ => rfl) (fun _ _ => rfl)
      (raiseFault_ignoresFlag _)
  | div a b d =>
    exact .ite (c := fun s => s.memRead (ea8 b) = 0) (fun _ _ => rfl) (raiseFault_ignoresFlag _) (fun _ _ => rfl)
  | ret =>
    exact .ite (c := fun s => s.sp.val = 0) (fun _ _ => rfl) (raiseFault_ignoresFlag _) popAndResume_ignoresFlag
  | halt => exact .ite (c := fun s => s.sp.val > 0) (fun _ _ => rfl) popAndResume_ignoresFlag (fun _ _ => rfl)
  | getc a => exact execGetc_ignoresFlag a
  | jz a c => exact branchIfZero_ignoresFlag .jz (.abs8 a) c
  | run a => exact callTo_ignoresFlag .run (.abs8 a)
  | run16 a => rw [funext (exec_run16 a)]; exact callTo_ignoresFlag .run16 (.abs16 a)
  | jz16 a c => rw [funext (exec_jz16 a c)]; exact fun _ _ => rfl
  | jmp16 a => rw [funext (exec_jmp16 a)]; exact fun _ _ => rfl
  | poke16 a v => rw [funext (exec_poke16 a v)]; exact fun _ _ => rfl
  | move16 src dst => rw [funext (exec_move16 src dst)]; exact fun _ _ => rfl
  | _ => exact fun _ _ => rfl

/-- Settles O19: the three flagged instructions share one shape, which overwrites OF; no other effect of `exec` writes it; a
fault is taken by `State.raise`, which keeps it; and `exec` ignores it. -/
theorem overflowFlagIsWrittenByArithmeticOnly : Obligations.OverflowFlagIsWrittenByArithmeticOnly := by
  refine ⟨fun a b d s flag => ⟨?_, ?_, ?_⟩, fun i s t => of_eq_of_exec, exec_ignoresFlag, ?_, ?_⟩
  · exact flaggedOp_setOf .add aluAdd addFlag a b d s flag
  · exact flaggedOp_setOf .sub aluSub subFlag a b d s flag
  · exact flaggedOp_setOf .mul aluMul mulFlag a b d s flag
  · intro s t k h hk
    rw [eq_raise_of_step h hk]; rfl
  · intro s r h
    obtain ⟨-, -, hof, -⟩ := outcome_fields h
    exact hof

/-! ## SP moves by calls and returns only -/

/-- RUN and RUN16 differ in their width and their target only. -/
theorem exec_eq_callTo {i : Instr} (hi : i.opcode = .run ∨ i.opcode = .run16) (s : State) :
    ∃ target, exec i s = callTo i.opcode target s := by
  cases i with
  | run a => exact ⟨_, exec_run a s⟩
  | run16 a => exact ⟨_, exec_run16 a s⟩
  | _ => simp [Instr.opcode] at hi

/-- A call fills slot SP and raises SP by one, or takes one of the two faults of R113. -/
theorem callTo_stack {op : Opcode} {target : PcSource} {s t : State} (h : callTo op target s = .next t) :
    (t.sp.val = s.sp.val + 1 ∧ ∀ (k : Nat) (hk : k < 64), k ≠ s.sp.val → t.stk[k] = s.stk[k]) ∨
    FaultTaken s t .invalidAddress ∨ FaultTaken s t .stackOverflow := by
  rcases callTo_cases op target s with ⟨-, e⟩ | ⟨-, -, e⟩ | ⟨-, hroom, e⟩ <;> rw [e] at h <;> cases h
  · exact .inr (.inl (faultTaken_raise s _))
  · exact .inr (.inr (faultTaken_raise s _))
  · exact .inl ⟨rfl, fun k hk hne => Vector.getElem_set_ne hroom hk hne.symm⟩

/-- On an empty stack RET takes a fault and HALT ends the run; neither touches the stack. -/
theorem exec_return_empty {i : Instr} {s t : State} (hi : i.opcode = .ret ∨ i.opcode = .halt) (h0 : s.sp.val = 0)
    (h : exec i s = .next t) : KeepsStack s t := by
  cases i with
  | ret => rw [exec_ret_empty h0] at h; cases h; exact ⟨rfl, rfl⟩
  | halt => rw [exec_halt_empty h0] at h; cases h; exact ⟨rfl, rfl⟩
  | _ => simp [Instr.opcode] at hi

/-- R163: with a call outstanding HALT is RET. -/
theorem exec_return_nonempty {i : Instr} {s : State} (hi : i.opcode = .ret ∨ i.opcode = .halt) (h0 : s.sp.val ≠ 0) :
    exec i s = popAndResume s := by
  cases i with
  | ret => exact exec_ret_nonempty h0
  | halt => exact exec_halt_nonempty h0
  | _ => simp [Instr.opcode] at hi

/-- R111: the vacated slot keeps its content. -/
theorem popAndResume_stack {s t : State} (h0 : s.sp.val ≠ 0) (h : popAndResume s = .next t) :
    t.stk = s.stk ∧ t.sp.val + 1 = s.sp.val := by
  obtain ⟨hlt, e⟩ := popAndResume_of_nonempty h0
  rw [e] at h; cases h
  exact ⟨rfl, Nat.succ_pred_eq_of_ne_zero h0⟩

theorem exec_return_stack {i : Instr} {s t : State} (hi : i.opcode = .ret ∨ i.opcode = .halt)
    (h : exec i s = .next t) :
    t.stk = s.stk ∧ (s.sp.val = 0 → t.sp = s.sp) ∧ (s.sp.val ≠ 0 → t.sp.val + 1 = s.sp.val) := by
  by_cases h0 : s.sp.val = 0
  · obtain ⟨hstk, hsp⟩ := exec_return_empty hi h0 h
    exact ⟨hstk, fun _ => hsp, fun hne => absurd h0 hne⟩
  · rw [exec_return_nonempty hi h0] at h
    obtain ⟨hstk, hsp⟩ := popAndResume_stack h0 h
    exact ⟨hstk, fun hz => absurd hz h0, fun _ => hsp⟩

theorem keepsStack_of_exec {i : Instr} {s t : State} (h : exec i s = .next t) (hrun : i.opcode ≠ .run)
    (hrun16 : i.opcode ≠ .run16) (hret : i.opcode ≠ .ret) (hhalt : i.opcode ≠ .halt) : KeepsStack s t := by
  cases exec_effect h with
  | call hi => simp [hrun, hrun16] at hi
  | ret hi =>
    rcases hi with rfl | rfl
    · exact absurd rfl hret
    · exact absurd rfl hhalt
  | fault | wait | halt | jump | store | storeFlag | emit | input => exact ⟨rfl, rfl⟩

/-- Settles O23: calls by the three ways a call ends, returns by whether the stack is empty, all others by their effect. -/
theorem stackMovesOnlyByCallsAndReturns : Obligations.StackMovesOnlyByCallsAndReturns := by
  refine ⟨fun i s t h => ⟨fun hi => ?_, fun hi => exec_return_stack hi h, keepsStack_of_exec h⟩, ?_, ?_⟩
  · obtain ⟨target, e⟩ := exec_eq_callTo hi s
    exact callTo_stack (e ▸ h)
  · exact fun s => Nat.le_of_lt_succ s.sp.isLt
  · intro s r h
    obtain ⟨-, -, -, hsp⟩ := outcome_fields h
    exact hsp

end Sys2Proof.Machine

/-! PROOF. 30_encoding.md, the opcode table and the choice of the instruction by B0 (R79). -/

namespace Sys2Proof.Machine

/-! ## The rows of the opcode table -/

/-- Under the mask 0xFF a row is selected by its pattern alone (R79). -/
theorem selects_iff_of_fullMask {r : OpcodeRow} (h : r.mask = 0xFF) (b : Byte) :
    r.selects b = true ↔ b = r.pattern := by
  have hall : b &&& 0xFF = b := BitVec.and_allOnes
  rw [OpcodeRow.selects, h, hall, beq_iff_eq]

theorem instructionRows_fullMask : ∀ r ∈ instructionRows, r.mask = 0xFF := by decide

/-- The patterns of the instruction rows are 0x00 to 0x1E, in order (R78). -/
theorem instructionRows_patterns :
    instructionRows.map (·.pattern) = (List.range Config.numOpcodes).map (BitVec.ofNat 8) := rfl

theorem instructionRow_selected_iff (b : Byte) :
    (∃ r ∈ instructionRows, r.selects b = true) ↔ b.toNat ≤ 0x1E := by
  calc (∃ r ∈ instructionRows, r.selects b = true)
    _ ↔ ∃ r ∈ instructionRows, b = r.pattern :=
      exists_congr fun r => and_congr_right fun hr => selects_iff_of_fullMask (instructionRows_fullMask r hr) b
    _ ↔ b ∈ instructionRows.map (·.pattern) := by simp only [List.mem_map, eq_comm]
    _ ↔ ∃ n < 31, BitVec.ofNat 8 n = b := by
      simp only [instructionRows_patterns, List.mem_map, List.mem_range, Config.numOpcodes]
    _ ↔ b.toNat ≤ 0x1E := by
      constructor
      · rintro ⟨n, hn, rfl⟩
        rw [BitVec.toNat_ofNat]; omega
      · exact fun hb => ⟨b.toNat, by omega, by simp⟩

/-- The masks and patterns of the 40 rows tile the 256 bytes, checked byte by byte. -/
theorem opcodeTable_selects_once : ∀ b : Byte, (opcodeTable.filter (fun r => r.selects b)).length = 1 := by decide

/-! ## The decoder stays in the row that B0 selects -/

section
variable {op : Opcode} {i : Instr} {bs rest : List Byte}

theorem opcode_of_take0 {j : Instr} (hj : j.opcode = op) (h : take0 j bs = .ok (i, rest)) : i.opcode = op := by
  cases h; exact hj

theorem opcode_of_take1 {k : Byte → Instr} (hk : ∀ b1, (k b1).opcode = op) (h : take1 k bs = .ok (i, rest)) :
    i.opcode = op := by
  unfold take1 at h
  split at h <;> cases h
  exact hk _

theorem opcode_of_take2 {k : Byte → Byte → Instr} (hk : ∀ b1 b2, (k b1 b2).opcode = op)
    (h : take2 k bs = .ok (i, rest)) : i.opcode = op := by
  unfold take2 at h
  split at h <;> cases h
  exact hk _ _

theorem opcode_of_take3 {k : Byte → Byte → Byte → Instr} (hk : ∀ b1 b2 b3, (k b1 b2 b3).opcode = op)
    (h : take3 k bs = .ok (i, rest)) : i.opcode = op := by
  unfold take3 at h
  split at h <;> cases h
  exact hk _ _ _

theorem opcode_of_take4 {k : Byte → Byte → Byte → Byte → Instr} (hk : ∀ b1 b2 b3 b4, (k b1 b2 b3 b4).opcode = op)
    (h : take4 k bs = .ok (i, rest)) : i.opcode = op := by
  unfold take4 at h
  split at h <;> cases h
  exact hk _ _ _ _

/-- The operand bytes fill in operands; they never change the row (R79). The rows stand by their number of operand bytes
(R72). -/
theorem opcode_of_decodeOperands {b0 : Byte} (h : decodeOperands op b0 bs = .ok (i, rest)) : i.opcode = op := by
  cases op with
  | nop | halt | ret => exact opcode_of_take0 rfl h
  | reserved1F | reserved20 | reserved30 | reserved34 | reserved36 => exact opcode_of_take0 rfl h
  | unassigned37 | unassigned38 | unassigned40 | unassigned80 => exact opcode_of_take0 rfl h
  | not | jmp | run | inc | dec | comment | putc | putn | getc => exact opcode_of_take1 (fun _ => rfl) h
  | poke | move | jz | jmp16 | run16 => exact opcode_of_take2 (fun _ _ => rfl) h
  | nand | and | or | xor | cmp | add | sub | mul | div | shl | shr => exact opcode_of_take3 (fun _ _ _ => rfl) h
  | poke16 | jz16 => exact opcode_of_take3 (fun _ _ _ => rfl) h
  | move16 => exact opcode_of_take4 (fun _ _ _ _ => rfl) h

theorem lookupOpcode_of_decode {b0 : Byte} (h : decode (b0 :: bs) = .ok (i, rest)) :
    lookupOpcode b0 = some i.opcode := by
  cases hop : lookupOpcode b0 with
  | some op =>
    simp only [decode, hop] at h
    rw [opcode_of_decodeOperands h]
  | none =>
    simp only [decode, hop] at h
    cases h

end

/-- Settles O1: the instruction rows have mask 0xFF and the patterns 0x00 to 0x1E, the tiling is a table check, and whatever
decodes is of the row that B0 selects. -/
theorem opcodeTableTilesAllBytes : Obligations.OpcodeTableTilesAllBytes :=
  ⟨rfl, instructionRows_fullMask, rfl, instructionRow_selected_iff, opcodeTable_selects_once,
    fun _ _ _ _ => lookupOpcode_of_decode⟩

end Sys2Proof.Machine

/-! PROOF. 40_engine_step.md, the validator and the faults of the fetch: HasOperands (R104), the call-stack controller (R110,
R111), pc outside memory (R115), an opcode above the table (R116), the width check (R117). -/

namespace Sys2Proof.Machine

/-! ## HasOperands (R104) -/

theorem hasOperands_iff_bytes {p n : Nat} (hn : 0 < n) : hasOperands p n = true ↔ ∀ k, k < n → p + k ≤ 65535 := by
  rw [hasOperands_iff]
  constructor
  · rintro ⟨-, hend⟩ k hk
    omega
  · intro h
    have hlast := h (n - 1) (by omega)
    omega

/-- Settles O5: the last of the n bytes decides. -/
theorem hasOperandsMeansAllBytesInMemory : Obligations.HasOperandsMeansAllBytesInMemory :=
  fun p n => ⟨hasOperands_iff p n, hasOperands_iff_bytes⟩

/-! ## The call-stack controller (R110, R111) -/

theorem push_eq_none_iff (s : State) (v : Addr16) : s.push v = none ↔ s.sp.val = 64 := by
  by_cases h : s.sp.val < 64
  · simp [push_of_room h, h.ne]
  · have hfull : s.sp.val = 64 := by have := s.sp.isLt; omega
    simp [push_of_full hfull, hfull]

theorem pop_eq_none_iff (s : State) : s.pop = none ↔ s.sp.val = 0 := by
  by_cases h : s.sp.val = 0
  · simp [pop_of_empty h, h]
  · obtain ⟨_, hpop⟩ := pop_of_nonempty h
    simp [hpop, h]

theorem push_eq_some {s t : State} {v : Addr16} (h : s.push v = some t) :
    ∃ hroom : s.sp.val < 64,
      t = { s with stk := s.stk.set s.sp.val v hroom, sp := ⟨s.sp.val + 1, Nat.succ_lt_succ hroom⟩ } := by
  have hfull : s.sp.val ≠ 64 := fun hf => by simp [push_of_full hf] at h
  have hroom : s.sp.val < 64 := by have := s.sp.isLt; omega
  rw [push_of_room hroom] at h
  exact ⟨hroom, (Option.some.inj h).symm⟩

theorem pop_eq_some {s t : State} {w : Addr16} (h : s.pop = some (w, t)) :
    s.sp.val ≠ 0 ∧ ∃ hlt : s.sp.val - 1 < 64,
      w = s.stk[s.sp.val - 1] ∧ t = { s with sp := ⟨s.sp.val - 1, Nat.lt_succ_of_lt hlt⟩ } := by
  have h0 : s.sp.val ≠ 0 := fun hz => by simp [pop_of_empty hz] at h
  obtain ⟨hlt, hpop⟩ := pop_of_nonempty h0
  rw [hpop] at h
  cases h
  exact ⟨h0, hlt, rfl, rfl⟩

/-- Last in, first out: the slot that Push filled is the one that Pop reads, and it keeps its content (R111). -/
theorem pop_of_push {s t : State} {v : Addr16} (h : s.push v = some t) : t.pop = some (v, { t with sp := s.sp }) := by
  obtain ⟨hroom, rfl⟩ := push_eq_some h
  obtain ⟨_, hpop⟩ := pop_of_nonempty (s := { s with
    stk := s.stk.set s.sp.val v hroom, sp := ⟨s.sp.val + 1, Nat.succ_lt_succ hroom⟩ }) (Nat.succ_ne_zero _)
  simp [hpop]

/-- Settles O29: each report is none exactly at its bound, and otherwise the operation is the equation of R110 or R111. -/
theorem pushAndPopAreLastInFirstOut : Obligations.PushAndPopAreLastInFirstOut := by
  refine fun s v => ⟨push_eq_none_iff s v, pop_eq_none_iff s, fun t h => ?_, fun w t h => ?_⟩
  · have hpop := pop_of_push h
    obtain ⟨hroom, rfl⟩ := push_eq_some h
    exact ⟨rfl, fun _ => Vector.getElem_set_self hroom, fun k hk hne => Vector.getElem_set_ne hroom hk hne.symm, rfl, hpop⟩
  · obtain ⟨h0, hlt, rfl, rfl⟩ := pop_eq_some h
    exact ⟨Nat.succ_pred_eq_of_ne_zero h0, fun _ => rfl, rfl⟩

/-! ## The step below the ceiling, by what the pc check and the fetch say -/

theorem takesFault_of_eq_raise {o : Host.Outcome State Fault Refusal} {s : State} {k : FaultKind}
    (h : o = .next (s.raise k)) : TakesFault o s k :=
  ⟨_, h, faultTaken_raise s k⟩

section
variable {s : State} (hr : s.runState = .running) (hc : s.icount.toNat + 1 ≤ Config.instrLimit)
include hr hc

theorem step_of_pcOutside (hpc : Config.memorySize ≤ s.pc.toNat) : step s = .next (s.count.raise .ipOutOfBounds) := by
  rw [step_of_running hr, runPhases, if_neg (Nat.not_lt.mpr hc), if_pos hpc, raiseFault_eq]

theorem step_of_fetchError {k : FaultKind} (hpc : s.pc.toNat < Config.memorySize) (hf : s.fetchInstr = .error k) :
    step s = .next (s.count.raise k) := by
  rw [step_of_running hr, runPhases, if_neg (Nat.not_lt.mpr hc), if_neg (Nat.not_le.mpr hpc), hf]
  rfl

theorem step_of_fetched {i : Instr} (hpc : s.pc.toNat < Config.memorySize) (hf : s.fetchInstr = .ok i)
    (hh : s.holds i = false) : step s = exec i s.count := by
  rw [step_of_running hr, runPhases, if_neg (Nat.not_lt.mpr hc), if_neg (Nat.not_le.mpr hpc), hf]
  simp [hh]

end

/-! ## The fetch, by the width check (R103, R117) -/

theorem fetchInstr_of_overrun {s : State} {op : Opcode} (hop : lookupOpcode (s.mem.read s.pc.toNat) = some op)
    (h : 65536 < s.pc.toNat + op.width) : s.fetchInstr = .error .truncatedInstruction := by
  have hno : ¬ hasOperands s.pc.toNat op.width = true := by rw [hasOperands_iff]; omega
  simp [State.fetchInstr, hop, hno]

theorem fetchInstr_of_fits {s : State} {op : Opcode} (hop : lookupOpcode (s.mem.read s.pc.toNat) = some op)
    (hpc : s.pc.toNat < 65536) (h : s.pc.toNat + op.width ≤ 65536) : ∃ i, s.fetchInstr = .ok i ∧ i.opcode = op := by
  have hyes := (hasOperands_iff s.pc.toNat op.width).mpr ⟨hpc, h⟩
  obtain ⟨op', hop', hcase⟩ := fetchInstr_cases s
  obtain rfl := Option.some.inj (hop.symm.trans hop')
  simp only [hyes] at hcase
  obtain ⟨hno, -⟩ | ⟨-, i, hf, hio, -⟩ := hcase
  · cases hno
  · exact ⟨i, hf, hio⟩

/-! ## An opcode byte above the table (R116) -/

theorem lookupOpcode_eq_some {b : Byte} {op : Opcode} (h : lookupOpcode b = some op) :
    ∃ r ∈ opcodeTable, r.selects b = true ∧ r.opcode = op := by
  obtain ⟨r, hr, rfl⟩ := Option.map_eq_some_iff.mp h
  exact ⟨r, List.mem_of_find?_eq_some hr, List.find?_some (p := fun r : OpcodeRow => r.selects b) hr, rfl⟩

theorem nonInstructionRows_format : ∀ r ∈ nonInstructionRows, r.opcode.format = .none := by decide

theorem format_of_lookupOpcode_above {b : Byte} {op : Opcode} (hb : 0x1E < b.toNat) (h : lookupOpcode b = some op) :
    op.format = .none := by
  obtain ⟨r, hr, hsel, rfl⟩ := lookupOpcode_eq_some h
  rcases List.mem_append.mp hr with hinstr | hnon
  · have hle := (instructionRow_selected_iff b).mp ⟨r, hinstr, hsel⟩
    omega
  · exact nonInstructionRows_format r hnon

/-- R90, R91: the rows that are no instruction all take UnknownOpcode. -/
theorem exec_of_noFormat {i : Instr} (h : i.opcode.format = .none) (s : State) :
    exec i s = .next (s.raise .unknownOpcode) := by
  cases i with
  | reserved1F | reserved20 | reserved30 | reserved34 | reserved36 => rfl
  | unassigned37 | unassigned38 | unassigned40 | unassigned80 => rfl
  | _ => cases h

theorem holds_of_noFormat {i : Instr} (h : i.opcode.format = .none) (s : State) : s.holds i = false := by
  have hne : i.opcode ≠ .getc := fun he => by rw [he] at h; cases h
  simp [State.holds, hne]

/-- Settles O9: such a byte selects a row without a format, whose width is 1, so the fetch succeeds at every address below
MEMORY_SIZE, and the meaning of the row is the fault. -/
theorem opcodeAboveTheTableFaults : Obligations.OpcodeAboveTheTableFaults := by
  intro s hr hc hpc hb
  obtain ⟨op, hop⟩ := Option.isSome_iff_exists.mp (lookupOpcode_isSome (s.mem.read s.pc.toNat))
  have hformat := format_of_lookupOpcode_above hb hop
  have hwidth : op.width = 1 := by rw [Opcode.width, hformat]; rfl
  obtain ⟨i, hf, rfl⟩ := fetchInstr_of_fits hop hpc (hwidth ▸ hpc)
  rw [step_of_fetched hr hc hpc hf (holds_of_noFormat hformat s)]
  exact takesFault_of_eq_raise (exec_of_noFormat hformat s.count)

/-! ## The width check (R117) -/

theorem instructionRows_lookup : ∀ r ∈ instructionRows, lookupOpcode r.pattern = some r.opcode := by decide

/-- The dispatch table's W against R72's list, row by row. -/
theorem instructionRows_width : ∀ r ∈ instructionRows, r.opcode.width = widthByOpcodeByte.getD r.pattern.toNat 0 := by
  decide

theorem lookupOpcode_width {b : Byte} (hb : b.toNat ≤ 0x1E) :
    ∃ op, lookupOpcode b = some op ∧ op.width = widthByOpcodeByte.getD b.toNat 0 := by
  obtain ⟨r, hr, hsel⟩ := (instructionRow_selected_iff b).mpr hb
  obtain rfl := (selects_iff_of_fullMask (instructionRows_fullMask r hr) b).mp hsel
  exact ⟨r.opcode, instructionRows_lookup r hr, instructionRows_width r hr⟩

/-- Settles O10: R72's list gives the width of the row that the byte selects, and the width check decides the fetch. -/
theorem truncatedInstructionFaults : Obligations.TruncatedInstructionFaults := by
  rintro s n hr hc hpc rfl hb
  obtain ⟨op, hop, hwidth⟩ := lookupOpcode_width hb
  rw [← hwidth]
  refine ⟨fun hover => ?_, fun hfits => ?_, fun hone => hone.symm ▸ hpc⟩
  · exact takesFault_of_eq_raise (step_of_fetchError hr hc hpc (fetchInstr_of_overrun hop hover))
  · obtain ⟨i, hf, rfl⟩ := fetchInstr_of_fits hop hpc hfits
    exact ⟨i, hf, rfl⟩

/-! ## pc outside memory (R115) -/

theorem length_le (i : Instr) : i.length ≤ 257 := by
  cases i with
  | comment len => have := len.isLt; simp only [Instr.length]; omega
  | _ => simp [Instr.length, Instr.opcode]

/-- R118: pc moves past the instruction, or to an address inside memory, or stays. -/
theorem nextPc_pcSelect_cases (s : State) (i : Instr) :
    nextPc s.pc (pcSelect s i) = BitVec.ofNat 32 (s.pc.toNat + i.length) ∨
    (nextPc s.pc (pcSelect s i)).toNat < 65536 ∨ nextPc s.pc (pcSelect s i) = s.pc := by
  have habs8 (a : Addr8) : (nextPc s.pc (.abs8 a)).toNat < 65536 := (setWidth8_lt a).trans (by decide)
  cases i with
  | nop | not | inc | dec | putc | putn | getc | poke | move | poke16 | move16 => exact .inl rfl
  | nand | and | or | xor | cmp | shl | shr | add | sub | mul | div => exact .inl rfl
  | comment len => exact .inl (congrArg (BitVec.ofNat 32) (Nat.add_assoc _ 2 len.toNat))
  | jmp a | run a => exact .inr (.inl (habs8 a))
  | jmp16 a | run16 a => exact .inr (.inl (setWidth16_lt a))
  | jz a c =>
    simp only [pcSelect]
    split
    · exact .inr (.inl (habs8 a))
    · exact .inl rfl
  | jz16 a c =>
    simp only [pcSelect]
    split
    · exact .inr (.inl (setWidth16_lt a))
    · exact .inl rfl
  | ret => exact .inr (.inl (setWidth16_lt s.topEntry))
  | halt =>
    simp only [pcSelect]
    split
    · exact .inr (.inl (setWidth16_lt s.topEntry))
    · exact .inr (.inr rfl)
  | reserved1F | reserved20 | reserved30 | reserved34 | reserved36 => exact .inr (.inr rfl)
  | unassigned37 | unassigned38 | unassigned40 | unassigned80 => exact .inr (.inr rfl)

/-- Where the run goes on, pc has taken the selected source, or a GETC is held. -/
theorem pc_of_exec_running {i : Instr} {s t : State} (h : exec i s = .next t) (ht : t.runState = .running) :
    t.pc = s.pc ∨ t.pc = nextPc s.pc (pcSelect s i) := by
  cases exec_effect h with
  | fault | halt => cases ht
  | wait => exact .inl rfl
  | jump | store | storeFlag | emit | input | call | ret => exact .inr rfl

theorem end_of_exec_leaving {i : Instr} {s t : State} (hpc : s.pc.toNat < 65536) (h : exec i s = .next t)
    (ht : t.runState = .running) (hout : t.pc.toNat = 65536) : s.pc.toNat + i.length = 65536 := by
  have hlen := length_le i
  rcases pc_of_exec_running h ht with e | e
  · rw [e] at hout; omega
  · rw [e] at hout
    rcases nextPc_pcSelect_cases s i with hseq | hin | hhold
    · rw [hseq, BitVec.toNat_ofNat, Nat.mod_eq_of_lt (by omega)] at hout
      exact hout
    · omega
    · rw [hhold] at hout; omega

/-- Settles O8: the pc check comes second, the invariant bounds pc by 65536, and of the sources of R118 only the ones that
move past the instruction lead out of memory. -/
theorem pcOutsideMemoryFaults : Obligations.PcOutsideMemoryFaults := by
  refine ⟨fun s hr hc hpc => ⟨?_, fun hinv => Nat.le_antisymm hinv.pcBound hpc⟩, fun s t h ht hout => ?_⟩
  · exact takesFault_of_eq_raise (step_of_pcOutside hr hc hpc)
  · obtain ⟨-, ⟨-, rfl⟩ | ⟨-, -, rfl⟩ | ⟨-, -, -, rfl⟩ | ⟨i, -, hpc, -, -, -, rfl⟩ | ⟨i, -, hpc, hf, -, he⟩⟩ :=
      step_cases h
    · cases ht
    · cases ht
    · cases ht
    · exact absurd hout hpc.ne
    · exact ⟨i, hf, end_of_exec_leaving (s := s.count) hpc he ht hout⟩

end Sys2Proof.Machine

/-! PROOF. 30_encoding.md, the encoder against the decoder: the round trip in both directions (R72 to R79). -/

namespace Sys2Proof.Machine

/-! ## What is encoded decodes -/

/-- B0 of an encoding selects the instruction's own row (R78, R79). -/
theorem opcodeSelected (i : Instr) : Laws.OpcodeSelected.Statement i := by
  cases i with
  | reserved20 op => exact Laws.OpcodeSelected.reserved20 op
  | reserved30 op => exact Laws.OpcodeSelected.reserved30 op
  | reserved34 op => exact Laws.OpcodeSelected.reserved34 op
  | unassigned38 op => exact Laws.OpcodeSelected.unassigned38 op
  | unassigned40 op => exact Laws.OpcodeSelected.unassigned40 op
  | unassigned80 op => exact Laws.OpcodeSelected.unassigned80 op
  | _ => exact fun _ => rfl

/-- The operand bytes of an encoding are the ones the decoder takes, in the same order (R74 to R76). -/
theorem decodeOperands_encode (i : Instr) :
    ∃ b0 operands, encode i = b0 :: operands ∧
      ∀ rest, decodeOperands i.opcode b0 (operands ++ rest) = .ok (i, rest) := by
  cases i with
  | poke16 | move16 | jmp16 | jz16 | run16 =>
    exact ⟨_, _, rfl, fun rest => by simp [Instr.opcode, decodeOperands, take2, take3, take4]⟩
  | _ => exact ⟨_, _, rfl, fun _ => rfl⟩

/-- Settles O3: B0 selects the instruction's row, and that row takes exactly the operand bytes. -/
theorem encodeThenDecode : Obligations.EncodeThenDecode := by
  intro i rest hwf
  obtain ⟨b0, operands, henc, hops⟩ := decodeOperands_encode i
  have hsel : lookupOpcode b0 = some i.opcode := by
    have := opcodeSelected i hwf
    rwa [henc] at this
  simp only [henc, List.cons_append, decode, hsel, hops]

/-! ## What decodes was encoded -/

theorem eq_of_take0 {i j : Instr} {bs rest : List Byte} (h : take0 j bs = .ok (i, rest)) : i = j ∧ bs = rest := by
  cases h; exact ⟨rfl, rfl⟩

theorem eq_of_take1 {k : Byte → Instr} {i : Instr} {bs rest : List Byte} (h : take1 k bs = .ok (i, rest)) :
    ∃ b1, i = k b1 ∧ bs = b1 :: rest := by
  unfold take1 at h
  split at h <;> cases h
  exact ⟨_, rfl, rfl⟩

theorem eq_of_take2 {k : Byte → Byte → Instr} {i : Instr} {bs rest : List Byte} (h : take2 k bs = .ok (i, rest)) :
    ∃ b1 b2, i = k b1 b2 ∧ bs = b1 :: b2 :: rest := by
  unfold take2 at h
  split at h <;> cases h
  exact ⟨_, _, rfl, rfl⟩

theorem eq_of_take3 {k : Byte → Byte → Byte → Instr} {i : Instr} {bs rest : List Byte}
    (h : take3 k bs = .ok (i, rest)) : ∃ b1 b2 b3, i = k b1 b2 b3 ∧ bs = b1 :: b2 :: b3 :: rest := by
  unfold take3 at h
  split at h <;> cases h
  exact ⟨_, _, _, rfl, rfl⟩

theorem eq_of_take4 {k : Byte → Byte → Byte → Byte → Instr} {i : Instr} {bs rest : List Byte}
    (h : take4 k bs = .ok (i, rest)) : ∃ b1 b2 b3 b4, i = k b1 b2 b3 b4 ∧ bs = b1 :: b2 :: b3 :: b4 :: rest := by
  unfold take4 at h
  split at h <;> cases h
  exact ⟨_, _, _, _, rfl, rfl⟩

/-- A row of the table, found by its name. -/
def rowOf (op : Opcode) : Option OpcodeRow := opcodeTable.find? (fun r => r.opcode = op)

theorem rowOf_opcode : ∀ r ∈ opcodeTable, rowOf r.opcode = some r := by decide

/-- The byte that selects an opcode meets the mask of the opcode's one row. -/
theorem selects_of_lookupOpcode {b : Byte} {op : Opcode} {r : OpcodeRow} (h : lookupOpcode b = some op)
    (hrow : rowOf op = some r) : r.selects b = true := by
  obtain ⟨r', hr', hsel, rfl⟩ := lookupOpcode_eq_some h
  obtain rfl := Option.some.inj ((rowOf_opcode r' hr').symm.trans hrow)
  exact hsel

theorem eq_pattern_of_lookupOpcode {b : Byte} {op : Opcode} {r : OpcodeRow} (h : lookupOpcode b = some op)
    (hrow : rowOf op = some r) (hmask : r.mask = 0xFF) : b = r.pattern :=
  (selects_iff_of_fullMask hmask b).mp (selects_of_lookupOpcode h hrow)

/-- A reserved or unassigned row of several bytes: the byte that it carries lies in the row's range (R90, R91). -/
theorem inByteRange_of_lookupOpcode {b : Byte} {op : Opcode} {r : OpcodeRow} {lo hi : Byte}
    (hrange : ∀ b, r.selects b = true → inByteRange lo hi b = true) (hrow : rowOf op = some r)
    (h : lookupOpcode b = some op) : inByteRange lo hi b = true :=
  hrange b (selects_of_lookupOpcode h hrow)

/-- The rows stand by their number of operand bytes (R72); the byte of a row with a full mask is its pattern. -/
theorem encode_of_decodeOperands {op : Opcode} {b0 : Byte} {bs rest : List Byte} {i : Instr}
    (hop : lookupOpcode b0 = some op) (h : decodeOperands op b0 bs = .ok (i, rest)) :
    i.wellFormed = true ∧ b0 :: bs = encode i ++ rest := by
  cases op with
  | nop | halt | ret | reserved1F | reserved36 | unassigned37 =>
    obtain ⟨rfl, rfl⟩ := eq_of_take0 h
    obtain rfl := eq_pattern_of_lookupOpcode hop rfl rfl
    exact ⟨rfl, rfl⟩
  | reserved20 | reserved30 | reserved34 | unassigned38 | unassigned40 | unassigned80 =>
    obtain ⟨rfl, rfl⟩ := eq_of_take0 h
    exact ⟨inByteRange_of_lookupOpcode (by decide) rfl hop, rfl⟩
  | not | jmp | run | inc | dec | comment | putc | putn | getc =>
    obtain ⟨_, rfl, rfl⟩ := eq_of_take1 h
    obtain rfl := eq_pattern_of_lookupOpcode hop rfl rfl
    exact ⟨rfl, rfl⟩
  | poke | move | jz =>
    obtain ⟨_, _, rfl, rfl⟩ := eq_of_take2 h
    obtain rfl := eq_pattern_of_lookupOpcode hop rfl rfl
    exact ⟨rfl, rfl⟩
  | jmp16 | run16 =>
    obtain ⟨_, _, rfl, rfl⟩ := eq_of_take2 h
    obtain rfl := eq_pattern_of_lookupOpcode hop rfl rfl
    exact ⟨rfl, by simp [encode]⟩
  | nand | and | or | xor | cmp | add | sub | mul | div | shl | shr =>
    obtain ⟨_, _, _, rfl, rfl⟩ := eq_of_take3 h
    obtain rfl := eq_pattern_of_lookupOpcode hop rfl rfl
    exact ⟨rfl, rfl⟩
  | poke16 | jz16 =>
    obtain ⟨_, _, _, rfl, rfl⟩ := eq_of_take3 h
    obtain rfl := eq_pattern_of_lookupOpcode hop rfl rfl
    exact ⟨rfl, by simp [encode]⟩
  | move16 =>
    obtain ⟨_, _, _, _, rfl, rfl⟩ := eq_of_take4 h
    obtain rfl := eq_pattern_of_lookupOpcode hop rfl rfl
    exact ⟨rfl, by simp [encode]⟩

/-- Settles O4: B0 selects the row of the instruction it decodes to, and that row's operand bytes are the encoding's. -/
theorem decodeThenEncode : Obligations.DecodeThenEncode := by
  intro bs rest i h
  cases bs with
  | nil => cases h
  | cons b0 bs =>
    have hop := lookupOpcode_of_decode h
    simp only [decode, hop] at h
    exact encode_of_decodeOperands hop h

/-! ## Sample words -/

/-- Settles O2: each word is the encoding of its instruction, which O3 decodes. -/
theorem sampleWordsDecode : Obligations.SampleWordsDecode :=
  ⟨encodeThenDecode (.poke 0x00 0x41) [] rfl, encodeThenDecode (.move 0x20 0x21) [] rfl,
    encodeThenDecode (.shr 0x10 0x11 0x12) [] rfl, encodeThenDecode (.jz 0x0C 0x80) [] rfl,
    encodeThenDecode (.sub 0x80 0x81 0x83) [] rfl, encodeThenDecode (.getc 0x80) [] rfl,
    encodeThenDecode (.jz16 0x0100 0x90) [] rfl, encodeThenDecode (.move16 0x1234 0x0200) [] rfl⟩

end Sys2Proof.Machine

/-! PROOF. 10_state.md, the dead slots of the call stack (R26, D19): no instruction and no phase of a step reads a slot
at index SP or above. -/

namespace Sys2Proof.Machine

/-- The state with other call-stack slots. -/
def State.withStk (s : State) (v : Vector Addr16 64) : State := { s with stk := v }

/-- The slots below SP are the same. -/
def SameLiveSlots (s : State) (v : Vector Addr16 64) : Prop := ∀ (k : Nat) (h : k < 64), k < s.sp.val → s.stk[k] = v[k]

theorem agreeOnLive_withStk {s : State} {v : Vector Addr16 64} (h : SameLiveSlots s v) :
    AgreeOnLive s (s.withStk v) where
  mem := rfl
  sp := rfl
  live := h
  pc := rfl
  flag := rfl
  icount := rfl
  runState := rfl
  fkind := rfl
  fpc := rfl
  out := rfl
  input := rfl

theorem AgreeOnLive.eq_withStk {s t : State} (h : AgreeOnLive s t) : t = s.withStk t.stk := by
  cases s; cases t
  obtain ⟨hmem, hsp, -, hpc, hflag, hicount, hrun, hfkind, hfpc, hout, hinput⟩ := h
  simp only at hmem hsp hpc hflag hicount hrun hfkind hfpc hout hinput
  subst hmem hsp hpc hflag hicount hrun hfkind hfpc hout hinput
  rfl

/-- A meaning that does not show what the dead slots hold. -/
def IgnoresDeadSlots (f : State → Host.Outcome State Fault Refusal) : Prop :=
  ∀ (s : State) (v : Vector Addr16 64), SameLiveSlots s v → OutcomesRelated AgreeOnLive (f s) (f (s.withStk v))

theorem raiseFault_ignoresDeadSlots (k : FaultKind) : IgnoresDeadSlots (raiseFault k) :=
  fun s _ h => agreeOnLive_withStk (s := s.raise k) h

/-- A choice by a condition that does not read the slots. -/
theorem IgnoresDeadSlots.ite {c : State → Prop} [DecidablePred c] {f g : State → Host.Outcome State Fault Refusal}
    (hc : ∀ s v, c (s.withStk v) = c s) (hf : IgnoresDeadSlots f) (hg : IgnoresDeadSlots g) :
    IgnoresDeadSlots (fun s => if c s then f s else g s) := by
  intro s v h
  simp only [hc]
  split
  · exact hf s v h
  · exact hg s v h

theorem commitPc_ignoresDeadSlots (src : PcSource) : IgnoresDeadSlots (fun s => .next (s.commitPc src)) :=
  fun s _ h => agreeOnLive_withStk (s := s.commitPc src) h

theorem branchIfZero_ignoresDeadSlots (op : Opcode) (target : PcSource) (c : Addr8) :
    IgnoresDeadSlots (branchIfZero op target c) :=
  .ite (c := fun s => s.memRead (ea8 c) = 0) (fun _ _ => rfl) (commitPc_ignoresDeadSlots target)
    (commitPc_ignoresDeadSlots (.seq op.width))

/-- The state after a push that has room (R110). -/
def State.pushed (s : State) (hroom : s.sp.val < 64) (entry : Addr16) : State :=
  { s with stk := s.stk.set s.sp.val entry hroom, sp := ⟨s.sp.val + 1, Nat.succ_lt_succ hroom⟩ }

theorem push_eq_pushed {s : State} (hroom : s.sp.val < 64) (entry : Addr16) :
    s.push entry = some (s.pushed hroom entry) := push_of_room hroom entry

/-- A push fills the first dead slot with the same entry on both sides, so the live slots stay the same. -/
theorem SameLiveSlots.pushed {s : State} {v : Vector Addr16 64} (h : SameLiveSlots s v) (hroom : s.sp.val < 64)
    (entry : Addr16) : SameLiveSlots (s.pushed hroom entry) (v.set s.sp.val entry hroom) := by
  intro k hk hlt
  have hle : k < s.sp.val + 1 := hlt
  by_cases hkey : s.sp.val = k
  · subst hkey
    simp only [State.pushed, Vector.getElem_set_self]
  · simp only [State.pushed, Vector.getElem_set_ne _ _ hkey, h k hk (by omega)]

theorem callTo_ignoresDeadSlots (op : Opcode) (target : PcSource) : IgnoresDeadSlots (callTo op target) := by
  refine .ite (c := fun s => s.pc.toNat + op.width ≥ Config.memorySize) (fun _ _ => rfl)
    (raiseFault_ignoresDeadSlots _) (fun s v h => ?_)
  by_cases hroom : s.sp.val < 64
  · rw [push_eq_pushed hroom, push_eq_pushed (s := s.withStk v) hroom]
    exact agreeOnLive_withStk (s := (s.pushed hroom _).commitPc target) (h.pushed hroom _)
  · have hfull : s.sp.val = 64 := by have := s.sp.isLt; omega
    rw [push_of_full hfull, push_of_full (s := s.withStk v) hfull]
    exact raiseFault_ignoresDeadSlots _ s v h

/-- A pop reads the slot below SP, which is live. -/
theorem popAndResume_ignoresDeadSlots : IgnoresDeadSlots popAndResume := by
  intro s v h
  by_cases h0 : s.sp.val = 0
  · simp only [popAndResume, pop_of_empty h0, pop_of_empty (s := s.withStk v) h0]
    exact raiseFault_ignoresDeadSlots _ s v h
  · obtain ⟨hlt, e⟩ := popAndResume_of_nonempty h0
    obtain ⟨_, e'⟩ := popAndResume_of_nonempty (s := s.withStk v) h0
    have hread : (s.withStk v).stk[(s.withStk v).sp.val - 1] = s.stk[s.sp.val - 1] :=
      (h _ hlt (Nat.sub_one_lt h0)).symm
    rw [e, e', hread]
    refine agreeOnLive_withStk (fun k hk hlive => h k hk ?_)
    have : k < s.sp.val - 1 := hlive
    omega

theorem takeInput_withStk (s : State) (v : Vector Addr16 64) :
    (s.withStk v).takeInput = s.takeInput.map (fun p => (p.1, p.2.withStk v)) := by
  by_cases h : s.input.pos < s.input.bytes.length
  · rw [takeInput_of_byte h, takeInput_of_byte (s := s.withStk v) h]; rfl
  · cases he : s.input.ended
    · have hw : s.inputReady = false := (inputReady_eq_false_iff s).mpr ⟨by omega, he⟩
      rw [takeInput_of_wait hw, takeInput_of_wait (s := s.withStk v) hw]; rfl
    · rw [takeInput_of_end (by omega) he, takeInput_of_end (s := s.withStk v) (Nat.not_lt.mp h) he]; rfl

theorem takeInput_stack {s t : State} {b : Byte} (h : s.takeInput = some (b, t)) : KeepsStack s t := by
  unfold State.takeInput at h
  split at h
  · cases h; exact ⟨rfl, rfl⟩
  · split at h <;> cases h
    exact ⟨rfl, rfl⟩

theorem SameLiveSlots.of_keepsStack {s t : State} {v : Vector Addr16 64} (h : SameLiveSlots s v) (hk : KeepsStack s t) :
    SameLiveSlots t v := by
  obtain ⟨hstk, hsp⟩ := hk
  intro k hk64 hlt
  rw [hstk]
  exact h k hk64 (hsp ▸ hlt)

theorem execGetc_ignoresDeadSlots (a : Addr8) : IgnoresDeadSlots (execGetc a) := by
  intro s v h
  simp only [execGetc, takeInput_withStk]
  cases hin : s.takeInput with
  | none => exact agreeOnLive_withStk h
  | some p =>
    have hlive : SameLiveSlots p.2 v := h.of_keepsStack (takeInput_stack hin)
    exact agreeOnLive_withStk (s := (p.2.memWrite (ea8 a) p.1).advance .getc) hlive

/-- The arms that branch or use the stack are named; every other one is a straight line of updates, none of which looks
at the stack. -/
theorem exec_ignoresDeadSlots (i : Instr) : IgnoresDeadSlots (exec i) := by
  cases i with
  | comment len =>
    exact .ite (c := fun s => hasOperands s.pc.toNat (2 + len.toNat) = true) (fun _ _ => rfl)
      (commitPc_ignoresDeadSlots (.skip len)) (raiseFault_ignoresDeadSlots _)
  | div a b d =>
    exact .ite (c := fun s => s.memRead (ea8 b) = 0) (fun _ _ => rfl) (raiseFault_ignoresDeadSlots _)
      (fun _ _ h => agreeOnLive_withStk h)
  | ret =>
    exact .ite (c := fun s => s.sp.val = 0) (fun _ _ => rfl) (raiseFault_ignoresDeadSlots _)
      popAndResume_ignoresDeadSlots
  | halt =>
    exact .ite (c := fun s => s.sp.val > 0) (fun _ _ => rfl) popAndResume_ignoresDeadSlots
      (fun _ _ h => agreeOnLive_withStk h)
  | getc a => exact execGetc_ignoresDeadSlots a
  | jz a c => exact branchIfZero_ignoresDeadSlots .jz (.abs8 a) c
  | run a => exact callTo_ignoresDeadSlots .run (.abs8 a)
  | run16 a => rw [funext (exec_run16 a)]; exact callTo_ignoresDeadSlots .run16 (.abs16 a)
  | jz16 a c => rw [funext (exec_jz16 a c)]; exact fun _ _ h => agreeOnLive_withStk h
  | jmp16 a => rw [funext (exec_jmp16 a)]; exact commitPc_ignoresDeadSlots (.abs16 a)
  | poke16 a v => rw [funext (exec_poke16 a v)]; exact fun _ _ h => agreeOnLive_withStk h
  | move16 src dst => rw [funext (exec_move16 src dst)]; exact fun _ _ h => agreeOnLive_withStk h
  | _ => exact fun _ _ h => agreeOnLive_withStk h

theorem fetchInstr_withStk (s : State) (v : Vector Addr16 64) : (s.withStk v).fetchInstr = s.fetchInstr := rfl

theorem runPhases_ignoresDeadSlots (limit : Nat) : IgnoresDeadSlots (runPhases limit exec) := by
  refine .ite (c := fun s => s.icount.toNat + 1 > limit) (fun _ _ => rfl) (fun s v h => ?_) (.ite
    (c := fun s => s.pc.toNat ≥ Config.memorySize) (fun _ _ => rfl) (fun s v h => ?_) (fun s v h => ?_))
  · exact raiseFault_ignoresDeadSlots _ s.count v h
  · exact raiseFault_ignoresDeadSlots _ s.count v h
  · rw [fetchInstr_withStk]
    cases s.fetchInstr with
    | error k => exact raiseFault_ignoresDeadSlots k s.count v h
    | ok i =>
      show OutcomesRelated AgreeOnLive (if s.holds i then _ else _) (if s.holds i then _ else _)
      split
      · exact agreeOnLive_withStk h
      · exact exec_ignoresDeadSlots i s.count v h

theorem step_ignoresDeadSlots : IgnoresDeadSlots step := by
  intro s v h
  cases hr : s.runState with
  | running =>
    rw [step_of_running hr, step_of_running (s := s.withStk v) hr]
    exact runPhases_ignoresDeadSlots _ s v h
  | idle | haltedNormal | haltedFault => simp [step, stepWithin, State.withStk, hr, OutcomesRelated]

/-- Settles O27: states that agree on the live part differ by their slots alone, and no phase of a step reads a dead
one. -/
theorem deadSlotsAreUnobservable : Obligations.DeadSlotsAreUnobservable := by
  intro s t h
  rw [h.eq_withStk]
  exact step_ignoresDeadSlots s t.stk h.live

end Sys2Proof.Machine

/-! PROOF. 40_engine_step.md: a step against the bytes at pc, the watchdog, the input wait and the run states (R101,
R102, R114). -/

namespace Sys2Proof.Machine

/-! ## The bytes at pc (R105) -/

/-- The bytes at pc are `bs`. -/
def State.BytesAtPc (s : State) (bs : List Byte) : Prop :=
  ∀ (k : Nat) (h : k < bs.length), s.mem.read (s.pc.toNat + k) = bs[k]

theorem encode_length (i : Instr) : (encode i).length = i.opcode.width := by
  cases i <;> rfl

theorem latch_length (s : State) (w : Nat) : (s.latch w).length = w := by
  simp [State.latch]

theorem latch_eq_iff (s : State) (bs : List Byte) : s.latch bs.length = bs ↔ s.BytesAtPc bs := by
  constructor
  · intro h k hk
    have hget : (s.latch bs.length)[k]'(by rwa [latch_length]) = bs[k] := by simp only [h]
    rw [← hget]
    simp [State.latch]
  · intro h
    refine List.ext_getElem (latch_length s _) (fun k _ hk => ?_)
    rw [← h k hk]
    simp [State.latch]

/-- What is fetched stands at pc. -/
theorem bytesAtPc_of_fetchInstr {s : State} {i : Instr} (h : s.fetchInstr = .ok i) :
    i.wellFormed = true ∧ s.BytesAtPc (encode i) ∧ s.pc.toNat + i.opcode.width ≤ 65536 := by
  obtain ⟨op, -, ⟨-, hf⟩ | ⟨hfits, j, hf, rfl, hd⟩⟩ := fetchInstr_cases s
  · cases hf.symm.trans h
  · obtain rfl : j = i := Except.ok.inj (hf.symm.trans h)
    obtain ⟨hwf, hlatch⟩ := decodeThenEncode _ _ _ hd
    rw [List.append_nil, ← encode_length] at hlatch
    exact ⟨hwf, (latch_eq_iff s _).mp hlatch, ((hasOperands_iff _ _).mp hfits).2⟩

/-- What stands at pc, and lies in memory, is fetched. -/
theorem fetchInstr_of_bytesAtPc {s : State} {i : Instr} (hwf : i.wellFormed = true) (hb : s.BytesAtPc (encode i))
    (hfits : s.pc.toNat + i.opcode.width ≤ 65536) : s.fetchInstr = .ok i := by
  obtain ⟨b0, operands, henc, -⟩ := decodeOperands_encode i
  have hb0 : s.mem.read s.pc.toNat = b0 := by
    rw [henc] at hb
    exact hb 0 (Nat.succ_pos _)
  have hop : lookupOpcode (s.mem.read s.pc.toNat) = some i.opcode := by
    have := opcodeSelected i hwf
    rw [henc] at this
    rwa [hb0]
  have hlatch : s.latch i.opcode.width = encode i := by
    rw [← encode_length]
    exact (latch_eq_iff s _).mpr hb
  have hpc : s.pc.toNat < 65536 := by have := width_pos i.opcode; omega
  have hdec := encodeThenDecode i [] hwf
  rw [List.append_nil, ← hlatch] at hdec
  simp only [State.fetchInstr, hop, (hasOperands_iff _ _).mpr ⟨hpc, hfits⟩, if_true, hdec]

/-- Settles O6: the bytes at pc are fetched as the instruction that they encode. -/
theorem stepRunsDecodedInstruction : Obligations.StepRunsDecodedInstruction := by
  intro s i hr hc hwf hfits hb hh
  rw [encode_length] at hfits
  have hpc : s.pc.toNat < Config.memorySize := by have := width_pos i.opcode; omega
  exact step_of_fetched hr hc hpc (fetchInstr_of_bytesAtPc hwf hb hfits) hh

/-! ## The watchdog, the input wait, the run states -/

theorem step_of_ceiling {s : State} (hr : s.runState = .running) (hc : s.icount.toNat + 1 > Config.instrLimit) :
    step s = .next (s.count.raise .instructionLimitExceeded) := by
  rw [step_of_running hr, runPhases, if_pos hc, raiseFault_eq]

/-- Settles O7: the comparison of P1 is the first thing a step does. -/
theorem watchdogStopsTheStep : Obligations.WatchdogStopsTheStep :=
  fun _ hr hc => takesFault_of_eq_raise (step_of_ceiling hr (Nat.lt_succ_of_le hc))

theorem holds_eq_true_iff (s : State) (i : Instr) :
    s.holds i = true ↔ (∃ a, i = .getc a) ∧ s.input.bytes.length ≤ s.input.pos ∧ s.input.ended = false := by
  rw [State.holds, Bool.and_eq_true, decide_eq_true_iff, Bool.not_eq_true', opcode_eq_getc_iff, inputReady_eq_false_iff]

theorem step_of_held {s : State} {i : Instr} (hr : s.runState = .running) (hc : s.icount.toNat + 1 ≤ Config.instrLimit)
    (hpc : s.pc.toNat < Config.memorySize) (hf : s.fetchInstr = .ok i) (hh : s.holds i = true) : step s = .next s := by
  rw [step_of_running hr, runPhases, if_neg (Nat.not_lt.mpr hc), if_neg (Nat.not_le.mpr hpc), hf]
  simp [hh]

/-- Settles O11: the hold is exactly a GETC whose input can be answered in neither way. -/
theorem inputWaitChangesNothing : Obligations.InputWaitChangesNothing := by
  intro s i hr hc hpc hf
  rw [← holds_eq_true_iff]
  exact ⟨step_of_held hr hc hpc hf, fun hh => step_of_fetched hr hc hpc hf (Bool.eq_false_of_not_eq_true hh)⟩

theorem step_of_halted {s : State} (h : s.halted) : step s = .fault .halted := by
  obtain h | ⟨k, h⟩ := h <;> simp [step, stepWithin, h]

theorem step_answers_next {s : State} (hr : s.runState = .running) : ∃ t, step s = .next t := by
  rw [step_of_running hr]
  rcases runPhases_cases Config.instrLimit exec s with
    ⟨-, e⟩ | ⟨-, -, e⟩ | ⟨-, -, -, e⟩ | ⟨i, -, -, -, -, e⟩ | ⟨i, -, -, -, -, e⟩ <;> rw [e]
  · exact ⟨_, rfl⟩
  · exact ⟨_, rfl⟩
  · exact ⟨_, rfl⟩
  · exact ⟨_, rfl⟩
  · exact exec_answers_next i s.count

/-- Settles O12: RUNSTATE decides whether a step is enabled, and in Running each of its ends is a next state. -/
theorem stepsOnlyWhileRunning : Obligations.StepsOnlyWhileRunning :=
  fun s => ⟨fun h => by simp [step, stepWithin, h], step_of_halted, fun _ => running_of_step, step_answers_next⟩

end Sys2Proof.Machine

/-! PROOF. 60_exceptions.md, the faults and the normal end: what a fault changes, which faults are raised, and exactly
when (R120, R163, R231, R238, R240, R243). -/

namespace Sys2Proof.Machine

/-! ## Faults are precise, and none is StackUnderflow -/

/-- Settles O13: Halted(Fault k) is entered by `State.raise` alone, after the count. -/
theorem faultsArePrecise : Obligations.FaultsArePrecise := by
  intro s t k h hk
  rw [eq_raise_of_step h hk]
  exact faultTaken_raise _ _

/-- The faults of the early phases, and the call-stack controller's own report, are none of phase P7 (R231, R238). -/
theorem faultKind_of_exec {i : Instr} {s t : State} {k : FaultKind} (hs : s.runState = .running)
    (h : exec i s = .next t) (hk : t.runState = .haltedFault k) :
    k ≠ .stackUnderflow ∧ k ≠ .instructionLimitExceeded ∧ k ≠ .ipOutOfBounds := by
  cases exec_effect h with
  | fault k' hunder hlimit hbounds => cases hk; exact ⟨hunder, hlimit, hbounds⟩
  | halt => cases hk
  | wait | jump | store | storeFlag | emit | input | call | ret => cases hs.symm.trans hk

/-- Settles O15: the three faults of the early phases are others, and no effect of `exec` raises it. -/
theorem stackUnderflowIsNeverRaised : Obligations.StackUnderflowIsNeverRaised := by
  intro s t h hk
  obtain ⟨hr, ⟨-, rfl⟩ | ⟨-, -, rfl⟩ | ⟨-, -, -, rfl⟩ | ⟨i, -, -, -, -, -, rfl⟩ | ⟨i, -, -, -, -, he⟩⟩ := step_cases h
  · cases hk
  · cases hk
  · cases hk
  · cases hr.symm.trans hk
  · obtain ⟨hne, -, -⟩ := faultKind_of_exec (s := s.count) hr he hk
    exact hne rfl

/-! ## The fault table (R231, R243) -/

theorem cell_eq_zero_iff_read (s : State) (c : Addr8) : s.cell c = 0 ↔ s.mem.read (ea8 c).toNat = 0 := by
  rw [ea8_toNat, cell_eq_zero_iff]

/-- COMMENT by the end of its payload (R133). -/
theorem exec_comment_of_overrun {len : Byte} {s : State} (h : s.pc.toNat + 2 + len.toNat > 65536) :
    exec (.comment len) s = .next (s.raise .truncatedInstruction) := by
  refine exec_comment_overruns ?_
  rw [← Bool.not_eq_true, hasOperands_iff]
  omega

theorem exec_comment_of_fits {len : Byte} {s : State} (hpc : s.pc.toNat < 65536)
    (h : s.pc.toNat + 2 + len.toNat ≤ 65536) : exec (.comment len) s = .next (s.commitPc (.skip len)) :=
  exec_comment_fits ((hasOperands_iff _ _).mpr ⟨hpc, by omega⟩)

/-- The fault of phase P7, and of a row that is no instruction, instruction by instruction. -/
def execFault (s : State) : Instr → Option FaultKind
  | .run _ =>
    if s.pc.toNat + 2 ≥ 65536 then some .invalidAddress
    else if s.sp.val = 64 then some .stackOverflow else none
  | .run16 _ =>
    if s.pc.toNat + 3 ≥ 65536 then some .invalidAddress
    else if s.sp.val = 64 then some .stackOverflow else none
  | .comment len => if s.pc.toNat + 2 + len.toNat > 65536 then some .truncatedInstruction else none
  | .div _ b _ => if s.cell b = 0 then some .divisionByZero else none
  | .ret => if s.sp.val = 0 then some .retWithEmptyStack else none
  | .reserved1F | .reserved20 _ | .reserved30 _ | .reserved34 _ | .reserved36 => some .unknownOpcode
  | .unassigned37 | .unassigned38 _ | .unassigned40 _ | .unassigned80 _ => some .unknownOpcode
  | .nop | .poke _ _ | .move _ _ | .not _ | .inc _ | .dec _ | .putc _ | .putn _ | .getc _ => none
  | .jmp _ | .jz _ _ | .halt => none
  | .nand _ _ _ | .and _ _ _ | .or _ _ _ | .xor _ _ _ | .cmp _ _ _ | .shl _ _ _ | .shr _ _ _ => none
  | .add _ _ _ | .sub _ _ _ | .mul _ _ _ | .poke16 _ _ | .move16 _ _ | .jmp16 _ | .jz16 _ _ => none

/-- An outcome is as a fault report at `s` says: that fault taken, or a next state without a fault. -/
def Reports (s : State) (o : Host.Outcome State Fault Refusal) : Option FaultKind → Prop
  | some k => o = .next (s.raise k)
  | none => ∃ t, o = .next t ∧ t.safe

theorem safe_of_runState_eq {s t : State} (hs : s.safe) (h : t.runState = s.runState) : t.safe :=
  fun k hk => hs k (h.symm.trans hk)

theorem safe_of_running {s : State} (hr : s.runState = .running) : s.safe :=
  fun _ hk => by cases hr.symm.trans hk

section
variable {s : State} (hs : s.safe)
include hs

/-- A meaning that completes and keeps RUNSTATE. -/
theorem reports_none {o : Host.Outcome State Fault Refusal} {t : State} (h : o = .next t)
    (hr : t.runState = s.runState) : Reports s o none :=
  ⟨t, h, safe_of_runState_eq hs hr⟩

theorem callTo_reports (op : Opcode) (target : PcSource) :
    Reports s (callTo op target s)
      (if s.pc.toNat + op.width ≥ 65536 then some .invalidAddress
       else if s.sp.val = 64 then some .stackOverflow else none) := by
  obtain ⟨hbig, e⟩ | ⟨hsmall, hfull, e⟩ | ⟨hsmall, hroom, e⟩ := callTo_cases op target s
  · rw [if_pos hbig]; exact e
  · rw [if_neg (Nat.not_le.mpr hsmall), if_pos hfull]; exact e
  · rw [if_neg (Nat.not_le.mpr hsmall), if_neg hroom.ne]; exact reports_none hs e rfl

theorem popAndResume_reports (h0 : s.sp.val ≠ 0) : Reports s (popAndResume s) none := by
  obtain ⟨_, e⟩ := popAndResume_of_nonempty h0
  exact reports_none hs e rfl

theorem execGetc_reports (a : Addr8) : Reports s (exec (.getc a) s) none := by
  by_cases hp : s.input.pos < s.input.bytes.length
  · exact reports_none hs (exec_getc_byte hp) rfl
  · cases he : s.input.ended
    · exact reports_none hs (exec_getc_wait ((inputReady_eq_false_iff s).mpr ⟨Nat.not_lt.mp hp, he⟩)) rfl
    · exact reports_none hs (exec_getc_end (Nat.not_lt.mp hp) he) rfl

theorem exec_reports (hpc : s.pc.toNat < 65536) (i : Instr) : Reports s (exec i s) (execFault s i) := by
  cases i with
  | run a => have h := callTo_reports hs .run (.abs8 a); rw [width_run] at h; exact h
  | run16 a => have h := callTo_reports hs .run16 (.abs16 a); rw [width_run16, ← exec_run16] at h; exact h
  | comment len =>
    by_cases hover : s.pc.toNat + 2 + len.toNat > 65536
    · rw [execFault, if_pos hover]; exact exec_comment_of_overrun hover
    · rw [execFault, if_neg hover]; exact reports_none hs (exec_comment_of_fits hpc (Nat.not_lt.mp hover)) rfl
  | div a b d =>
    have hiff := cell_eq_zero_iff_read s b
    by_cases hz : s.cell b = 0
    · rw [execFault, if_pos hz]; exact exec_div_zero (hiff.mp hz)
    · rw [execFault, if_neg hz]; exact reports_none hs (exec_div_nonzero (mt hiff.mpr hz)) rfl
  | ret =>
    by_cases h0 : s.sp.val = 0
    · rw [execFault, if_pos h0]; exact exec_ret_empty h0
    · rw [execFault, if_neg h0, exec_ret_nonempty h0]; exact popAndResume_reports hs h0
  | halt =>
    by_cases h0 : s.sp.val = 0
    · exact ⟨_, exec_halt_empty h0, nofun⟩
    · rw [exec_halt_nonempty h0]; exact popAndResume_reports hs h0
  | getc a => exact execGetc_reports hs a
  | jz a c => exact reports_none hs (exec_jz a c s) rfl
  | jz16 a c => exact reports_none hs (exec_jz16 a c s) rfl
  | jmp16 a => exact reports_none hs (exec_jmp16 a s) rfl
  | poke16 a v => exact reports_none hs (exec_poke16 a v s) rfl
  | move16 src dst => exact reports_none hs (exec_move16 src dst s) rfl
  | reserved1F | reserved20 | reserved30 | reserved34 | reserved36 => rfl
  | unassigned37 | unassigned38 | unassigned40 | unassigned80 => rfl
  | _ => exact reports_none hs rfl rfl

end

/-- The instructions whose own phase P7 can fault, by opcode byte: RUN, COMMENT, RET, DIV, RUN16. -/
def faultingOpcodeBytes : List Nat := [0x07, 0x0F, 0x13, 0x17, 0x1E]

section
variable {pc sp op len divisor : Nat}

theorem faultFor_of_unknown (hop : op > 0x1E) : faultFor pc sp op len divisor = some .unknownOpcode := if_pos hop

/-- The conditions of phase P7, once the byte is an instruction's and the width check has passed. -/
theorem faultFor_of_fits (hop : op ≤ 0x1E) (hfits : pc + widthByOpcodeByte.getD op 0 ≤ 65536) :
    faultFor pc sp op len divisor =
      if op = 0x07 ∧ pc + 2 ≥ 65536 then some .invalidAddress
      else if op = 0x1E ∧ pc + 3 ≥ 65536 then some .invalidAddress
      else if (op = 0x07 ∨ op = 0x1E) ∧ sp = 64 then some .stackOverflow
      else if op = 0x0F ∧ pc + 2 + len > 65536 then some .truncatedInstruction
      else if op = 0x17 ∧ divisor = 0 then some .divisionByZero
      else if op = 0x13 ∧ sp = 0 then some .retWithEmptyStack
      else none := by
  rw [faultFor, if_neg (Nat.not_lt.mpr hop), if_neg (Nat.not_lt.mpr hfits)]

theorem faultFor_of_overrun (hop : op ≤ 0x1E) (hover : pc + widthByOpcodeByte.getD op 0 > 65536) :
    faultFor pc sp op len divisor = some .truncatedInstruction := by
  rw [faultFor, if_neg (Nat.not_lt.mpr hop), if_pos hover]

theorem faultFor_of_plain (hop : op ≤ 0x1E) (hfits : pc + widthByOpcodeByte.getD op 0 ≤ 65536)
    (hplain : op ∉ faultingOpcodeBytes) : faultFor pc sp op len divisor = none := by
  simp only [faultingOpcodeBytes, List.mem_cons, List.not_mem_nil, or_false, not_or] at hplain
  obtain ⟨hrun, hcomment, hret, hdiv, hrun16⟩ := hplain
  rw [faultFor_of_fits hop hfits]
  simp [hrun, hcomment, hret, hdiv, hrun16]

end

/-- The fault table read off the raw bytes says what the fetched instruction can do. -/
theorem faultFor_eq_execFault {s : State} {i : Instr} (hf : s.fetchInstr = .ok i) :
    faultFor s.pc.toNat s.sp.val (s.mem.read s.pc.toNat).toNat (s.mem.read (s.pc.toNat + 1)).toNat
      (s.mem.read (s.mem.read (s.pc.toNat + 2)).toNat).toNat = execFault s i := by
  obtain ⟨hwf, hb, hfits⟩ := bytesAtPc_of_fetchInstr hf
  have hb0 : s.mem.read s.pc.toNat = _ := hb 0 (by rw [encode_length]; exact width_pos _)
  rw [hb0]
  cases i with
  | run | run16 | ret =>
    rw [faultFor_of_fits (by simp [encode]) hfits]
    simp [encode, execFault]
  | comment len =>
    rw [faultFor_of_fits (by simp [encode]) hfits, hb 1 Nat.one_lt_two]
    simp [encode, execFault]
  | div a b d =>
    rw [faultFor_of_fits (by simp [encode]) hfits, hb 2 (by simp [encode])]
    simp [encode, execFault, State.cell]
  | reserved1F | reserved36 | unassigned37 => exact faultFor_of_unknown (by decide)
  | reserved20 op | reserved30 op | reserved34 op | unassigned38 op | unassigned40 op | unassigned80 op =>
    simp only [Instr.wellFormed, inByteRange, Bool.and_eq_true, decide_eq_true_eq] at hwf
    exact faultFor_of_unknown (Nat.lt_of_lt_of_le (by decide) hwf.1)
  | _ => exact faultFor_of_plain (by simp [encode]) hfits (by simp [encode, faultingOpcodeBytes])

/-- A fetch below MEMORY_SIZE fails only where the width check does, at an instruction's byte (R117). -/
theorem faultFor_of_fetchError {s : State} {k : FaultKind} {len divisor : Nat} (hpc : s.pc.toNat < 65536)
    (hf : s.fetchInstr = .error k) :
    faultFor s.pc.toNat s.sp.val (s.mem.read s.pc.toNat).toNat len divisor = some k := by
  obtain ⟨op, hop, ⟨hno, he⟩ | ⟨-, i, he, -, -⟩⟩ := fetchInstr_cases s
  · obtain rfl : k = .truncatedInstruction := Except.error.inj (hf.symm.trans he)
    have hover : 65536 < s.pc.toNat + op.width := by
      rw [← Bool.not_eq_true, hasOperands_iff] at hno; omega
    have hknown : (s.mem.read s.pc.toNat).toNat ≤ 0x1E := by
      by_contra hunknown
      have hwidth : op.width = 1 := by rw [Opcode.width, format_of_lookupOpcode_above (Nat.not_le.mp hunknown) hop]; rfl
      omega
    obtain ⟨op', hop', hwidth⟩ := lookupOpcode_width hknown
    obtain rfl := Option.some.inj (hop.symm.trans hop')
    exact faultFor_of_overrun hknown (hwidth ▸ hover)
  · cases hf.symm.trans he

/-- A running step is as the fault table says: that fault taken after the count, or a next state without a fault. -/
theorem step_reports {s : State} (hr : s.runState = .running) : Reports s.count (step s) s.faultDue := by
  have hs : s.count.safe := safe_of_running hr
  by_cases hc : s.icount.toNat + 1 > Config.instrLimit
  · rw [State.faultDue, if_pos hc]
    exact step_of_ceiling hr hc
  rw [State.faultDue, if_neg hc]
  have hc := Nat.not_lt.mp hc
  by_cases hpc : s.pc.toNat ≥ 65536
  · rw [if_pos hpc]
    exact step_of_pcOutside hr hc hpc
  rw [if_neg hpc]
  have hpc := Nat.not_le.mp hpc
  cases hf : s.fetchInstr with
  | error k =>
    rw [faultFor_of_fetchError hpc hf]
    exact step_of_fetchError hr hc hpc hf
  | ok i =>
    rw [faultFor_eq_execFault hf]
    cases hh : s.holds i with
    | true =>
      obtain ⟨⟨a, rfl⟩, -⟩ := (holds_eq_true_iff s i).mp hh
      exact reports_none hs (step_of_held hr hc hpc hf hh) rfl
    | false =>
      rw [step_of_fetched hr hc hpc hf hh]
      exact exec_reports hs hpc i

/-- A fault report, told from the run state that the step ends in. -/
theorem Reports.fault_iff {s : State} {o : Host.Outcome State Fault Refusal} {r : Option FaultKind} (h : Reports s o r)
    (k : FaultKind) : (∃ t, o = .next t ∧ t.runState = .haltedFault k) ↔ r = some k := by
  cases r with
  | some k' =>
    obtain rfl : o = .next (s.raise k') := h
    constructor
    · rintro ⟨t, ht, hk⟩
      cases ht
      cases hk
      rfl
    · intro hk
      cases hk
      exact ⟨_, rfl, rfl⟩
  | none =>
    obtain ⟨t, rfl, hsafe⟩ := h
    constructor
    · rintro ⟨t', ht, hk⟩
      cases ht
      exact absurd hk (hsafe k)
    · rintro ⟨⟩

/-- Settles O14: phase by phase in the order of R243, and in P7 by the instruction whose encoding stands at pc. -/
theorem faultsExactlyWhenDue : Obligations.FaultsExactlyWhenDue :=
  fun _ k hr => (step_reports hr).fault_iff k

/-! ## The normal end of a run (R120, R163) -/

/-- Halted(Normal) is entered by a HALT on an empty stack. -/
theorem halt_of_exec_haltedNormal {i : Instr} {s t : State} (hs : s.runState = .running) (h : exec i s = .next t)
    (ht : t.runState = .haltedNormal) : i = .halt ∧ s.sp.val = 0 ∧ t = s.halt := by
  cases exec_effect h with
  | halt hi hsp => exact ⟨hi, hsp, rfl⟩
  | fault => cases ht
  | wait | jump | store | storeFlag | emit | input | call | ret => cases hs.symm.trans ht

theorem halt_of_step_haltedNormal {s t : State} (h : step s = .next t) (ht : t.runState = .haltedNormal) :
    s.fetchInstr = .ok .halt ∧ s.sp.val = 0 ∧ t = s.count.halt := by
  obtain ⟨hr, ⟨-, rfl⟩ | ⟨-, -, rfl⟩ | ⟨-, -, -, rfl⟩ | ⟨i, -, -, -, -, -, rfl⟩ | ⟨i, -, -, hf, -, he⟩⟩ := step_cases h
  · cases ht
  · cases ht
  · cases ht
  · cases hr.symm.trans ht
  · obtain ⟨rfl, hsp, rfl⟩ := halt_of_exec_haltedNormal (s := s.count) hr he ht
    exact ⟨hf, hsp, rfl⟩

theorem step_of_halt_due {s t : State} (h : step s = .next t) (hdue : s.faultDue = none) (hf : s.fetchInstr = .ok .halt)
    (hsp : s.sp.val = 0) : t = s.count.halt := by
  obtain ⟨hr, ⟨hc, rfl⟩ | ⟨-, hpc, rfl⟩ | ⟨-, -, he, -⟩ | ⟨i, -, -, he, hi, -⟩ | ⟨i, -, -, he, -, hex⟩⟩ := step_cases h
  · exact absurd (((step_reports hr).fault_iff _).mp ⟨_, h, rfl⟩) (by simp [hdue])
  · exact absurd (((step_reports hr).fault_iff _).mp ⟨_, h, rfl⟩) (by simp [hdue])
  · cases hf.symm.trans he
  · obtain rfl := Except.ok.inj (hf.symm.trans he)
    cases hi
  · obtain rfl := Except.ok.inj (hf.symm.trans he)
    rw [exec_halt_empty (s := s.count) hsp] at hex
    exact (Host.Outcome.next.inj hex).symm

/-- Settles O26: HALT on an empty stack is the one way into Halted(Normal), and where it is fetched and no fault is due,
it runs. -/
theorem onlyHaltOnEmptyStackEndsNormally : Obligations.OnlyHaltOnEmptyStackEndsNormally := by
  intro s t h
  refine ⟨⟨fun ht => ?_, fun ⟨hdue, hf, hsp⟩ => ?_⟩, fun ht => ?_⟩
  · obtain ⟨hf, hsp, -⟩ := halt_of_step_haltedNormal h ht
    refine ⟨Option.eq_none_iff_forall_ne_some.mpr (fun k hdue => ?_), hf, hsp⟩
    obtain ⟨t', h', hk⟩ := ((step_reports (running_of_step h)).fault_iff k).mpr hdue
    obtain rfl := Host.Outcome.next.inj (h.symm.trans h')
    cases ht.symm.trans hk
  · rw [step_of_halt_due h hdue hf hsp]; rfl
  · obtain ⟨-, -, e⟩ := halt_of_step_haltedNormal h ht
    exact e

end Sys2Proof.Machine

/-! PROOF. 10_state.md and 40_engine_step.md: how the streams, memory, pc and the counter move, and that every run
ends. -/

namespace Sys2Proof.Machine

/-! ## The frame of an instruction, element by element -/

section
variable {i : Instr} {s t : State} (h : exec i s = .next t)
include h

theorem icount_of_exec : t.icount = s.icount := by
  cases exec_effect h with
  | fault | wait | halt | jump | store | storeFlag | emit | input | call | ret => rfl

theorem wf_of_exec (hwf : s.mem.wf) : t.mem.wf := by
  cases exec_effect h with
  | fault | wait | halt | jump | emit | call | ret => exact hwf
  | store a v | storeFlag _ a v => exact wf_memWrite hwf a v
  | input _ _ a v => exact wf_write hwf (addr16_lt a) v

/-- FKIND is written with a fault only (R240). -/
theorem fkind_of_exec (ht : t.runState = .running) : t.fkind = s.fkind := by
  cases exec_effect h with
  | fault => cases ht
  | wait | halt | jump | store | storeFlag | emit | input | call | ret => rfl

/-- IN, INPOS and the end signal move by the one effect of a GETC that takes a byte. -/
theorem input_of_exec : t.input = s.input ∨
    (i.opcode = .getc ∧ s.input.pos < s.input.bytes.length ∧ t.input = { s.input with pos := s.input.pos + 1 }) := by
  cases exec_effect h with
  | fault | wait | halt | jump | store | storeFlag | emit | call | ret => exact .inl rfl
  | input hi hp => exact .inr ⟨hi, hp, rfl⟩

theorem out_of_exec : t.out = s.out ∨ ((i.opcode = .putc ∨ i.opcode = .putn) ∧ ∃ bs, t.out = s.out ++ bs) := by
  cases exec_effect h with
  | fault | wait | halt | jump | store | storeFlag | input | call | ret => exact .inl rfl
  | emit hi bs => exact .inr ⟨hi, bs, rfl⟩

/-- Memory is kept, or one cell is written, the one that the instruction stores to. -/
theorem mem_of_exec : t.mem = s.mem ∨ ∃ a v, storeAddr i = some a ∧ t.mem = s.mem.write a.toNat v := by
  cases exec_effect h with
  | fault | wait | halt | jump | emit | call | ret => exact .inl rfl
  | store a v hs | storeFlag _ a v _ hs | input _ _ a v hs => exact .inr ⟨a, v, hs, rfl⟩

end

/-! ## The streams, memory and pc (R39, R40, R66, R118) -/

/-- Settles O21: OUT and IN by the one effect that moves each. -/
theorem streamsMoveOnlyByInputOutput : Obligations.StreamsMoveOnlyByInputOutput := by
  intro i s t h
  have hout : (∃ bs, t.out = s.out ++ bs) ∧ (i.opcode ≠ .putc → i.opcode ≠ .putn → t.out = s.out) := by
    obtain e | ⟨hi, happ⟩ := out_of_exec h
    · exact ⟨⟨[], by rw [e, List.append_nil]⟩, fun _ _ => e⟩
    · exact ⟨happ, fun hputc hputn => absurd hi (by simp [hputc, hputn])⟩
  obtain ⟨hgrow, hkeep⟩ := hout
  refine ⟨hgrow, hkeep, ?_⟩
  obtain e | ⟨hi, -, e⟩ := input_of_exec h
  · rw [e]; simp
  · rw [e]; simp [hi]

theorem storeAddr_low {i : Instr} {a : Addr16} (hpoke : i.opcode ≠ .poke16) (hmove : i.opcode ≠ .move16)
    (h : storeAddr i = some a) : a.toNat < 256 := by
  have hlow : ∃ b : Addr8, a = ea8 b := by
    cases i with
    | poke16 => exact absurd rfl hpoke
    | move16 => exact absurd rfl hmove
    | _ => cases h <;> exact ⟨_, rfl⟩
  obtain ⟨b, rfl⟩ := hlow
  rw [ea8_toNat]
  exact b.isLt

/-- Settles O22: the one cell written is the one that `storeAddr` names, and only two instructions name a 16-bit
address. -/
theorem onlyTheStoredCellChanges : Obligations.OnlyTheStoredCellChanges := by
  intro i s t h
  obtain e | ⟨a, v, hs, e⟩ := mem_of_exec h <;> rw [e]
  · exact ⟨fun _ _ => rfl, fun _ _ _ _ => rfl⟩
  · refine ⟨fun x hx => read_write_other _ v (hx a hs), fun hpoke hmove x hx => read_write_other _ v ?_⟩
    have := storeAddr_low hpoke hmove hs
    omega

/-- Settles O24: every effect that completes commits the selected source; a fault, a wait and the normal end hold pc. -/
theorem pcMultiplexerSelects : Obligations.PcMultiplexerSelects := by
  intro i s t h
  cases exec_effect h with
  | fault k => exact .inr (.inl ⟨k, faultTaken_raise s k⟩)
  | wait hi hw => exact .inr (.inr ⟨rfl, hi, hw⟩)
  | halt hi hsp =>
    subst hi
    refine .inl ?_
    rw [pcSelect, if_neg (by omega)]
    rfl
  | jump | store | storeFlag | emit | input | call | ret => exact .inl rfl

/-! ## The counter, and the end of every run (R24, R102, R114) -/

/-- Settles O20: the count precedes every end of a step but the hold, and no effect of `exec` touches ICOUNT. -/
theorem everyStepCountsOnce : Obligations.EveryStepCountsOnce := by
  intro s t hc h
  have hcount := count_toNat hc
  obtain ⟨-, ⟨-, rfl⟩ | ⟨-, -, rfl⟩ | ⟨-, -, -, rfl⟩ | ⟨i, -, -, hf, hi, hw, rfl⟩ | ⟨i, -, -, -, -, he⟩⟩ := step_cases h
  · exact .inl hcount
  · exact .inl hcount
  · exact .inl hcount
  · obtain ⟨a, rfl⟩ := (opcode_eq_getc_iff i).mp hi
    exact .inr ⟨rfl, a, hf, hw⟩
  · exact .inl (icount_of_exec he ▸ hcount)

theorem running_or_halted_of_exec {i : Instr} {s t : State} (hs : s.runState = .running) (h : exec i s = .next t) :
    t.runState = .running ∨ t.halted := by
  cases exec_effect h with
  | fault k => exact .inr (.inr ⟨k, rfl⟩)
  | halt => exact .inr (.inl rfl)
  | wait | jump | store | storeFlag | emit | input | call | ret => exact .inl hs

/-- A step at the ceiling halts; one below it halts or the run goes on. -/
theorem running_or_halted_of_step {s t : State} (h : step s = .next t) :
    t.halted ∨ t.runState = .running ∧ s.icount.toNat + 1 ≤ Config.instrLimit := by
  obtain ⟨hr, ⟨-, rfl⟩ | ⟨-, -, rfl⟩ | ⟨-, -, -, rfl⟩ | ⟨i, hc, -, -, -, -, rfl⟩ | ⟨i, hc, -, -, -, he⟩⟩ := step_cases h
  · exact .inl (.inr ⟨_, rfl⟩)
  · exact .inl (.inr ⟨_, rfl⟩)
  · exact .inl (.inr ⟨_, rfl⟩)
  · exact .inr ⟨hr, hc⟩
  · exact (running_or_halted_of_exec (s := s.count) hr he).symm.imp_right (fun ht => ⟨ht, hc⟩)

/-- Input that is complete stays complete (R40). -/
theorem ended_of_step {s t : State} (h : step s = .next t) : t.input.ended = s.input.ended := by
  obtain ⟨-, ⟨-, rfl⟩ | ⟨-, -, rfl⟩ | ⟨-, -, -, rfl⟩ | ⟨i, -, -, -, -, -, rfl⟩ | ⟨i, -, -, -, -, he⟩⟩ := step_cases h
  · rfl
  · rfl
  · rfl
  · rfl
  · obtain e | ⟨-, -, e⟩ := input_of_exec he <;> rw [e] <;> rfl

/-- With a complete input nothing is held, so every step counts. -/
theorem count_of_step_ended {s t : State} (hc : s.icount.toNat ≤ Config.instrLimit) (hended : s.input.ended = true)
    (h : step s = .next t) : t.icount.toNat = s.icount.toNat + 1 := by
  obtain hcount | ⟨-, -, -, hw⟩ := everyStepCountsOnce s t hc h
  · exact hcount
  · obtain ⟨-, hopen⟩ := (inputReady_eq_false_iff s).mp hw
    cases hended.symm.trans hopen

theorem run_succ_of_step {s t : State} (h : step s = .next t) (k : Nat) : core.run (k + 1) s = core.run k t := by
  have hcore : core.step s = .next t := h
  simp only [Host.Core.run, hcore]

/-- By induction on the counts that the ceiling still allows. -/
theorem run_halts_within {s : State} (n : Nat) (hn : Config.instrLimit + 1 - s.icount.toNat = n)
    (hr : s.runState = .running) (hc : s.icount.toNat ≤ Config.instrLimit) (hended : s.input.ended = true) :
    ∃ (k : Nat) (t : State), k ≤ n ∧ core.run k s = .next t ∧ t.halted := by
  induction n generalizing s with
  | zero => omega
  | succ n ih =>
    obtain ⟨t, hstep⟩ := step_answers_next hr
    obtain hhalt | ⟨hrt, hbelow⟩ := running_or_halted_of_step hstep
    · exact ⟨1, t, by omega, run_succ_of_step hstep 0, hhalt⟩
    · have hcount := count_of_step_ended hc hended hstep
      obtain ⟨k, u, hk, hrun, hhalt⟩ := ih (s := t) (by omega) hrt (by omega) ((ended_of_step hstep).trans hended)
      exact ⟨k + 1, u, by omega, (run_succ_of_step hstep k).trans hrun, hhalt⟩

/-- Settles O25: each step counts one of the counts that are left, and the step that has none left halts. -/
theorem everyRunEndsWithinTheLimit : Obligations.EveryRunEndsWithinTheLimit :=
  fun _ hr hc hended => run_halts_within _ rfl hr hc hended

end Sys2Proof.Machine

/-! PROOF. 00_scope.md R8, the invariant: reset meets it, and every step and every host transaction keeps it (R8, R28,
R29, R112, R119). -/

namespace Sys2Proof.Machine

/-! ## The two ways to meet it: without a fault, and with one -/

/-- The invariant outside Idle and the fault states. -/
theorem inv_of_safe {s : State} (hsafe : s.safe) (hidle : s.runState ≠ .idle) (hmem : s.mem.wf)
    (hpc : s.pc.toNat ≤ Config.memorySize) (hc : s.icount.toNat ≤ Config.instrLimit) (hfkind : s.fkind = none)
    (hnormal : s.runState = .haltedNormal → s.sp.val = 0) (hin : s.input.pos ≤ s.input.bytes.length) : s.Inv where
  memory := hmem
  pcBound := hpc
  counterBound := Nat.le_succ_of_le hc
  counterOver := ⟨fun h => by omega, fun h => absurd h (hsafe _)⟩
  faultRecord := fun k => ⟨fun h => absurd h (hsafe k), fun h => by cases hfkind.symm.trans h⟩
  faultPc := fun k h => absurd h (hsafe k)
  outOfBounds := fun k h => absurd h (hsafe k)
  normalHalt := hnormal
  noUnderflow := hsafe _
  inputBound := hin
  idleFresh := fun h => absurd h hidle

theorem fkind_of_safe {s : State} (hinv : s.Inv) (hsafe : s.safe) : s.fkind = none :=
  Option.eq_none_iff_forall_ne_some.mpr fun k h => hsafe k ((hinv.faultRecord k).mpr h)

section
variable {s : State} (hinv : s.Inv) (hr : s.runState = .running)
include hinv hr

theorem icount_le_of_running : s.icount.toNat ≤ Config.instrLimit := by
  have hle := hinv.counterBound
  have hne : s.icount.toNat ≠ Config.instrLimit + 1 := fun h => by cases hr.symm.trans (hinv.counterOver.mp h)
  omega

/-- A fault taken in a running state, after the count (R240). -/
theorem inv_of_fault (k : FaultKind) (hk : k ≠ .stackUnderflow)
    (hover : Config.instrLimit < s.icount.toNat + 1 ↔ k = .instructionLimitExceeded)
    (hout : s.pc.toNat = Config.memorySize → k = .ipOutOfBounds ∨ k = .instructionLimitExceeded) :
    (s.count.raise k).Inv := by
  have hc := icount_le_of_running hinv hr
  have hcount := count_toNat hc
  exact {
    memory := hinv.memory
    pcBound := hinv.pcBound
    counterBound := by rw [raise_icount, hcount]; omega
    counterOver := by
      rw [raise_icount, hcount, raise_runState, RunState.haltedFault.injEq, ← hover]
      omega
    faultRecord := fun k' => by simp
    faultPc := fun _ _ => rfl
    outOfBounds := fun k' hk' hpc => RunState.haltedFault.inj hk' ▸ hout hpc
    normalHalt := nofun
    noUnderflow := fun h => hk (RunState.haltedFault.inj h)
    inputBound := hinv.inputBound
    idleFresh := nofun }

end

/-! ## Every step keeps it -/

/-- Where the run goes on after an instruction, the whole of it lay in memory (R104, R133). -/
theorem length_fits_of_exec {i : Instr} {s t : State} (hf : s.fetchInstr = .ok i) (h : exec i s.count = .next t)
    (ht : t.runState = .running) : s.pc.toNat + i.length ≤ 65536 := by
  obtain ⟨-, -, hfits⟩ := bytesAtPc_of_fetchInstr hf
  cases i with
  | comment len =>
    by_contra hover
    rw [Instr.length, ← Nat.add_assoc, Nat.not_le] at hover
    rw [exec_comment_of_overrun (s := s.count) hover] at h
    cases h
    cases ht
  | _ => exact hfits

theorem pcBound_of_exec {i : Instr} {s t : State} (hpc : s.pc.toNat < 65536) (hf : s.fetchInstr = .ok i)
    (h : exec i s.count = .next t) (ht : t.runState = .running) : t.pc.toNat ≤ 65536 := by
  have hfits := length_fits_of_exec hf h ht
  obtain e | e := pc_of_exec_running h ht
  · rw [e]; exact hpc.le
  · rw [e]
    obtain hseq | hin | hhold := nextPc_pcSelect_cases s.count i
    · rw [hseq, BitVec.toNat_ofNat, count_pc, Nat.mod_eq_of_lt (by omega)]; exact hfits
    · exact hin.le
    · rw [hhold]; exact hpc.le

/-- An instruction that is executed keeps the invariant. -/
theorem inv_of_exec {i : Instr} {s t : State} (hinv : s.Inv) (hr : s.runState = .running)
    (hc : s.icount.toNat + 1 ≤ Config.instrLimit) (hpc : s.pc.toNat < 65536) (hf : s.fetchInstr = .ok i)
    (h : exec i s.count = .next t) : t.Inv := by
  have hcount : t.icount.toNat ≤ Config.instrLimit := by
    rw [icount_of_exec h, count_toNat (Nat.le_of_succ_le hc)]; exact hc
  have hin : t.input.pos ≤ t.input.bytes.length := by
    obtain e | ⟨-, hp, e⟩ := input_of_exec h <;> rw [e]
    · exact hinv.inputBound
    · exact hp
  have hfkind := fkind_of_safe hinv (safe_of_running hr)
  obtain ht | ht | ⟨k, ht⟩ := running_or_halted_of_exec (s := s.count) hr h
  · exact inv_of_safe (safe_of_running ht) (fun hk => by cases ht.symm.trans hk)
      (wf_of_exec h hinv.memory) (pcBound_of_exec hpc hf h ht) hcount ((fkind_of_exec h ht).trans hfkind)
      (fun hk => by cases ht.symm.trans hk) hin
  · obtain ⟨-, hsp, rfl⟩ := halt_of_exec_haltedNormal (s := s.count) hr h ht
    exact inv_of_safe nofun nofun hinv.memory hinv.pcBound hcount hfkind (fun _ => hsp) hin
  · obtain ⟨hunder, hlimit, -⟩ := faultKind_of_exec (s := s.count) hr h ht
    rw [eq_raise_of_exec (s := s.count) hr h ht]
    exact inv_of_fault hinv hr k hunder (iff_of_false (Nat.not_lt.mpr hc) hlimit) (fun hout => absurd hout hpc.ne)

/-- Settles O17: the ends of a step, each against the record. -/
theorem stepKeepsInvariant : Obligations.StepKeepsInvariant := by
  intro s t hinv h
  obtain ⟨hr, ⟨hc, rfl⟩ | ⟨hc, hpc, rfl⟩ | ⟨hc, hpc, -, rfl⟩ | ⟨i, -, -, -, -, -, rfl⟩ | ⟨i, hc, hpc, hf, -, he⟩⟩ :=
    step_cases h
  · exact inv_of_fault hinv hr _ (by decide) (by simp [hc]) (fun _ => .inr rfl)
  · exact inv_of_fault hinv hr _ (by decide) (by simp; omega) (fun _ => .inl rfl)
  · exact inv_of_fault hinv hr _ (by decide) (by simp; omega) (fun _ => by omega)
  · exact hinv
  · exact inv_of_exec hinv hr hc hpc hf he

/-! ## Reset and the host's transactions -/

theorem reset_inv : State.reset.Inv where
  memory := wf_nil
  pcBound := Nat.zero_le _
  counterBound := Nat.zero_le _
  counterOver := ⟨nofun, nofun⟩
  faultRecord := fun _ => ⟨nofun, nofun⟩
  faultPc := nofun
  outOfBounds := nofun
  normalHalt := nofun
  noUnderflow := nofun
  inputBound := Nat.le_refl _
  idleFresh := fun _ => ⟨rfl, rfl⟩

/-- Settles O16: nothing is stored, counted or pushed at reset. -/
theorem resetMeetsInvariant : Obligations.ResetMeetsInvariant := reset_inv

section
variable {s t : State}

/-- The invariant says of IN only that INPOS does not pass its end. -/
theorem inv_withInput (hinv : s.Inv) {input : InputStream} (hin : input.pos ≤ input.bytes.length) :
    State.Inv { s with input := input } :=
  { hinv with inputBound := hin }

theorem inv_load (hinv : s.Inv) {image : List Byte} (h : s.load image = .next t) : t.Inv := by
  unfold State.load at h
  split at h <;> cases h
  exact { hinv with memory := wf_writeBytes hinv.memory 0 image }

theorem inv_run (hinv : s.Inv) {start : Addr16} (h : s.run start = .next t) : t.Inv := by
  unfold State.run at h
  split at h <;> cases h
  next hidle =>
    obtain ⟨hicount, -⟩ := hinv.idleFresh hidle
    have hfkind := fkind_of_safe hinv (fun k hk => by cases hidle.symm.trans hk)
    exact inv_of_safe nofun nofun hinv.memory (setWidth16_lt start).le (by simp [hicount]) hfkind nofun hinv.inputBound

theorem inv_setInput (hinv : s.Inv) {bytes : List Byte} (h : s.setInput bytes = .next t) : t.Inv := by
  unfold State.setInput at h
  split at h <;> cases h
  exact inv_withInput hinv (Nat.zero_le _)

theorem inv_openInput (hinv : s.Inv) (h : s.openInput = .next t) : t.Inv := by
  unfold State.openInput at h
  split at h <;> cases h
  exact inv_withInput hinv (Nat.zero_le _)

theorem inv_supplyByte (hinv : s.Inv) {b : Byte} (h : s.supplyByte b = .next t) : t.Inv := by
  unfold State.supplyByte at h
  split at h <;> cases h
  have hlen := hinv.inputBound
  exact inv_withInput hinv (by simp only [List.length_append]; omega)

theorem inv_endInput (hinv : s.Inv) (h : s.endInput = .next t) : t.Inv := by
  unfold State.endInput at h
  split at h <;> cases h
  exact inv_withInput hinv hinv.inputBound

end

/-- Settles O18: reset gives the reset state with another IN, load writes cells in canonical form, run starts with a
count of 0, and the rest write IN only. -/
theorem hostTransactionsKeepInvariant : Obligations.HostTransactionsKeepInvariant :=
  fun _ => ⟨inv_withInput reset_inv (Nat.zero_le _), fun hinv _ =>
    ⟨fun _ => inv_load hinv, fun _ => inv_run hinv, fun _ => inv_setInput hinv, inv_openInput hinv,
      fun _ => inv_supplyByte hinv, inv_endInput hinv⟩⟩

end Sys2Proof.Machine

/-! PROOF. 20_memory.md, the canonical form: it is determined by what it reads (R30, R50). -/

namespace Sys2Proof.Machine

/-- A listed cell reads as its entry: no other entry has its address. -/
theorem read_of_mem {m : Memory} (hwf : m.wf) {c : Host.Cell} (hc : c ∈ m) : m.read c.1 = c.2 := by
  induction m with
  | nil => cases hc
  | cons d ds ih =>
    obtain ⟨hd, -⟩ := List.pairwise_cons.mp hwf.1
    rw [read_cons]
    rcases List.mem_cons.mp hc with rfl | hmem
    · exact if_pos rfl
    · rw [if_neg (hd c hmem).ne]
      exact ih (wf_tail hwf) hmem

/-- A cell that does not read 0x00 is listed. -/
theorem mem_of_read_ne {m : Memory} {a : Nat} (h : m.read a ≠ unlistedByte) : (a, m.read a) ∈ m := by
  induction m with
  | nil => exact absurd rfl h
  | cons d ds ih =>
    rw [read_cons] at h ⊢
    split at h
    next hd => rw [if_pos hd, ← hd]; exact List.mem_cons_self
    next hd => rw [if_neg hd]; exact List.mem_cons_of_mem _ (ih h)

/-- In canonical form an entry is listed exactly when its address reads so and it is not 0x00. -/
theorem mem_iff_read {m : Memory} (hwf : m.wf) (c : Host.Cell) : c ∈ m ↔ m.read c.1 = c.2 ∧ c.2 ≠ unlistedByte := by
  constructor
  · intro hc
    obtain ⟨-, hnonzero⟩ := hwf.2 c hc
    exact ⟨read_of_mem hwf hc, hnonzero⟩
  · rintro ⟨hread, hnonzero⟩
    have hmem := mem_of_read_ne (hread.symm ▸ hnonzero)
    rwa [hread] at hmem

/-- Settles O28: both lists hold the same entries in strictly rising order of address. -/
theorem canonicalMemoriesThatReadAlikeAreEqual : Obligations.CanonicalMemoriesThatReadAlikeAreEqual := by
  intro m n hm hn h
  have : Std.Irrefl (fun c d : Host.Cell => c.1 < d.1) := ⟨fun c => Nat.lt_irrefl c.1⟩
  have : Std.Antisymm (fun c d : Host.Cell => c.1 < d.1) := ⟨fun c d hcd hdc => absurd hcd (Nat.lt_asymm hdc)⟩
  exact List.Pairwise.eq_of_mem_iff hm.1 hn.1 (fun c => by rw [mem_iff_read hm, mem_iff_read hn, h])

end Sys2Proof.Machine

/-! PROOF. 41_data_movement.md to 46_addr16.md: what each instruction stores, emits, pushes or pops, where it goes on,
and what it keeps. -/

namespace Sys2Proof.Machine

/-! ## The shapes of completion -/

section
variable {i : Instr} {s : State}

/-- One data write, then SEQ. -/
theorem completesStoring_of_exec {op : Opcode} {d : Addr16} {v : Byte} {result : Byte → Prop}
    (h : exec i s = .next ((s.memWrite d v).advance op)) (hv : result v) : CompletesStoring i s d op.width result :=
  ⟨_, h, by simpa [read_write_same] using hv, fun _ hx => read_write_other _ v hx, rfl, rfl, ⟨rfl, rfl⟩, ⟨rfl, rfl⟩,
    rfl, rfl, rfl, rfl⟩

/-- One data write and OF, then SEQ. -/
theorem completesStoringFlag_of_exec {op : Opcode} {d : Addr16} {v : Byte} {result : Byte → Prop} {flag : Bool}
    (h : exec i s = .next (((s.memWrite d v).setOf flag).advance op)) (hv : result v) :
    CompletesStoringFlag i s d op.width result flag :=
  ⟨_, h, by simpa [read_write_same] using hv, rfl, fun _ hx => read_write_other _ v hx, rfl, ⟨rfl, rfl⟩, ⟨rfl, rfl⟩,
    rfl, rfl, rfl, rfl⟩

/-- pc alone. -/
theorem completesAt_of_exec {src : PcSource} {pc' : Nat} (h : exec i s = .next (s.commitPc src))
    (hpc : nextPc s.pc src = BitVec.ofNat 32 pc') : CompletesAt i s pc' :=
  ⟨_, h, hpc, fun _ => rfl, rfl, ⟨rfl, rfl⟩, ⟨rfl, rfl⟩, rfl, rfl, rfl, rfl⟩

end

/-! ## Data movement -/

/-- Settles O30: NOP is SEQ with width 1. -/
theorem nopOnlyAdvances : Obligations.NopOnlyAdvances := fun s => completesAt_of_exec (exec_nop s) rfl

/-- Settles O31: one data write of the literal. -/
theorem pokeStoresTheLiteral : Obligations.PokeStoresTheLiteral :=
  ⟨fun a v s => completesStoring_of_exec (exec_poke a v s) rfl,
    fun a v s => completesStoring_of_exec (exec_poke16 a v s) rfl⟩

/-- Settles O32: one data write of the byte read before it. -/
theorem moveCopiesTheByte : Obligations.MoveCopiesTheByte :=
  ⟨fun src dst s => completesStoring_of_exec (exec_move src dst s) rfl,
    fun src dst s => completesStoring_of_exec (exec_move16 src dst s) rfl⟩

/-- Settles O33: HasOperands over the 2 + len bytes decides. -/
theorem commentSkipsItsPayload : Obligations.CommentSkipsItsPayload :=
  fun _ _ hpc => ⟨fun hfits => completesAt_of_exec (exec_comment_of_fits hpc hfits) rfl,
    fun hover => takesFault_of_eq_raise (exec_comment_of_overrun hover)⟩

/-! ## Logic, compare, shifts -/

theorem aluNot_toNat (x : Byte) : (aluNot x).toNat = 255 - x.toNat := BitVec.toNat_not

theorem aluEq_toNat (x y : Byte) : (aluEq x y).toNat = if x.toNat = y.toNat then 1 else 0 := by
  simp only [aluEq, BitVec.toNat_inj]
  split <;> rfl

theorem aluShl_toNat (x n : Byte) : (aluShl x n).toNat = x.toNat * 2 ^ (n.toNat % 8) % 256 := by
  rw [aluShl, BitVec.toNat_ofNat, shiftCount_eq]

/-- Settles O34: the complement of a byte is 255 minus it. -/
theorem notComplementsTheCell : Obligations.NotComplementsTheCell :=
  fun a s => completesStoring_of_exec (exec_not a s) (aluNot_toNat _)

/-- Settles O35: each form is its operation on bits. -/
theorem bitwiseFormsStoreTheirBits : Obligations.BitwiseFormsStoreTheirBits := by
  refine fun a b d s => ⟨completesStoring_of_exec (exec_and a b d s) ?_, completesStoring_of_exec (exec_or a b d s) ?_,
    completesStoring_of_exec (exec_xor a b d s) ?_, completesStoring_of_exec (exec_nand a b d s) ?_⟩
  · exact fun k _ => BitVec.getLsbD_and
  · exact fun k _ => BitVec.getLsbD_or
  · exact fun k _ => BitVec.getLsbD_xor
  · intro k hk
    rw [aluNand, BitVec.getLsbD_not, BitVec.getLsbD_and, decide_eq_true hk, Bool.true_and]

/-- Settles O36: equality of bytes is equality of their values. -/
theorem cmpStoresEquality : Obligations.CmpStoresEquality :=
  fun a b d s => completesStoring_of_exec (exec_cmp a b d s) (aluEq_toNat _ _)

/-- Settles O37: the masked count is the count modulo 8. -/
theorem shiftsUseTheCountModuloEight : Obligations.ShiftsUseTheCountModuloEight :=
  fun a b d s => ⟨completesStoring_of_exec (exec_shl a b d s) (aluShl_toNat _ _),
    completesStoring_of_exec (exec_shr a b d s) ((aluShr_toNat _ _).trans (by rw [shiftCount_eq]))⟩

/-! ## Arithmetic -/

theorem aluDec_toNat (x : Byte) : (aluDec x).toNat = (x.toNat + 255) % 256 := by
  have := x.isLt
  unfold aluDec
  split
  next h => rw [h]; rfl
  next h => rw [BitVec.toNat_ofNat]; omega

theorem aluSub_toNat (x y : Byte) : ((aluSub x y).toNat : Int) = ((x.toNat : Int) - (y.toNat : Int)) % 256 := by
  have := x.isLt
  have := y.isLt
  rw [aluSub, BitVec.toNat_ofNat]
  split <;> omega

theorem aluDiv_floor {x y : Byte} (h : y.toNat ≠ 0) :
    (aluDiv x y).toNat * y.toNat ≤ x.toNat ∧ x.toNat < ((aluDiv x y).toNat + 1) * y.toNat := by
  rw [aluDiv_toNat]
  exact ⟨Nat.div_mul_le_self _ _, (Nat.div_lt_iff_lt_mul (Nat.pos_of_ne_zero h)).mp (Nat.lt_succ_self _)⟩

/-- Settles O38: INC and DEC have no arm that writes OF. -/
theorem incAndDecWrapWithoutFlag : Obligations.IncAndDecWrapWithoutFlag :=
  fun a s => ⟨completesStoring_of_exec (exec_inc a s) (BitVec.toNat_ofNat _ _),
    completesStoring_of_exec (exec_dec a s) (aluDec_toNat _)⟩

/-- Settles O39: the stored byte is the sum narrowed to 8 bits, the flag the comparison of the exact sum. -/
theorem addStoresSumAndCarry : Obligations.AddStoresSumAndCarry :=
  fun a b d s => completesStoringFlag_of_exec (exec_add a b d s) (BitVec.toNat_ofNat _ _)

/-- Settles O40: the two cases of R180 are the difference modulo 256. -/
theorem subStoresDifferenceAndBorrow : Obligations.SubStoresDifferenceAndBorrow :=
  fun a b d s => completesStoringFlag_of_exec (exec_sub a b d s) (aluSub_toNat _ _)

/-- Settles O41: the stored byte is the product narrowed to 8 bits, the flag the comparison of the exact product. -/
theorem mulStoresProductAndExcess : Obligations.MulStoresProductAndExcess :=
  fun a b d s => completesStoringFlag_of_exec (exec_mul a b d s) (BitVec.toNat_ofNat _ _)

/-- Settles O42: the test of the divisor decides, and the quotient of two bytes is exact. -/
theorem divStoresQuotientOrFaults : Obligations.DivStoresQuotientOrFaults := by
  refine fun a b d s => ⟨fun hb => ?_, fun hb => ?_⟩
  · exact completesStoring_of_exec (exec_div_nonzero (mt (cell_eq_zero_iff_read s b).mpr hb)) (aluDiv_floor hb)
  · exact takesFault_of_eq_raise (exec_div_zero ((cell_eq_zero_iff_read s b).mp hb))

/-! ## Control flow -/

/-- Settles O43: every target of either size is a pc. -/
theorem jumpsTakeTheirTarget : Obligations.JumpsTakeTheirTarget :=
  ⟨fun a s => completesAt_of_exec (exec_jmp a s) (BitVec.ofNat_toNat 32 a).symm,
    fun a s => completesAt_of_exec (exec_jmp16 a s) (BitVec.ofNat_toNat 32 a).symm⟩

/-- The pc of a conditional jump, to a target of either size. -/
theorem nextPc_branch {s : State} {c : Addr8} {target : PcSource} {a w : Nat}
    (ht : nextPc s.pc target = BitVec.ofNat 32 a) :
    nextPc s.pc (if s.mem.read c.toNat = 0 then target else .seq w) =
      BitVec.ofNat 32 (if s.cell c = 0 then a else s.pc.toNat + w) := by
  simp only [cell_eq_zero_iff]
  split
  · exact ht
  · rfl

/-- Settles O44: the whole condition byte is tested. -/
theorem conditionalJumpsTestTheCell : Obligations.ConditionalJumpsTestTheCell :=
  ⟨fun a c s => completesAt_of_exec (exec_jz a c s) (nextPc_branch (BitVec.ofNat_toNat 32 a).symm),
    fun a c s => completesAt_of_exec (exec_jz16 a c s) (nextPc_branch (BitVec.ofNat_toNat 32 a).symm)⟩

section
variable {s : State} {op : Opcode} {target : PcSource}

theorem callTo_completes (hm : s.pc.toNat + op.width < Config.memorySize) (hroom : s.sp.val < 64) :
    callTo op target s = .next ((s.pushed hroom (BitVec.ofNat 16 (s.pc.toNat + op.width))).commitPc target) := by
  obtain ⟨hbig, -⟩ | ⟨-, hfull, -⟩ | ⟨-, _, e⟩ := callTo_cases op target s
  · omega
  · omega
  · exact e

theorem completesCall_of_callTo {i : Instr} {a : Nat} (hi : exec i s = callTo op target s)
    (ha : (nextPc s.pc target).toNat = a) (hm : s.pc.toNat + op.width < Config.memorySize)
    (hroom : s.sp.val < Config.stackCapacity) : CompletesCall i s (s.pc.toNat + op.width) a := by
  have hentry : (s.pushed hroom (BitVec.ofNat 16 (s.pc.toNat + op.width))).stk[s.sp.val] = _ :=
    Vector.getElem_set_self hroom
  refine ⟨hroom, _, hi.trans (callTo_completes hm hroom), ha, rfl, ?_,
    fun k hk hne => Vector.getElem_set_ne hroom hk hne.symm, fun _ => rfl, rfl, ⟨rfl, rfl⟩, rfl, rfl, rfl, rfl⟩
  rw [commitPc_stk, hentry, BitVec.toNat_ofNat]
  exact Nat.mod_eq_of_lt hm

theorem callTo_invalid (hm : s.pc.toNat + op.width ≥ Config.memorySize) :
    TakesFault (callTo op target s) s .invalidAddress := by
  obtain ⟨-, e⟩ | ⟨hsmall, -, -⟩ | ⟨hsmall, -⟩ := callTo_cases op target s
  · exact takesFault_of_eq_raise e
  · omega
  · omega

theorem callTo_overflow (hm : s.pc.toNat + op.width < Config.memorySize) (hfull : s.sp.val = Config.stackCapacity) :
    TakesFault (callTo op target s) s .stackOverflow := by
  obtain ⟨hbig, -⟩ | ⟨-, -, e⟩ | ⟨-, hroom, -⟩ := callTo_cases op target s
  · omega
  · exact takesFault_of_eq_raise e
  · exact absurd hfull hroom.ne

end

/-- Settles O45: a call with a return address that fits an entry and with room. -/
theorem callsPushTheReturnAddress : Obligations.CallsPushTheReturnAddress :=
  ⟨fun a s => completesCall_of_callTo (op := .run) (exec_run a s) (BitVec.toNat_setWidth_of_le (by decide)),
    fun a s => completesCall_of_callTo (op := .run16) (exec_run16 a s) (BitVec.toNat_setWidth_of_le (by decide))⟩

/-- Settles O46: the return address is checked before the stack. -/
theorem callsFaultWithoutPushing : Obligations.CallsFaultWithoutPushing := by
  refine ⟨fun a s => ?_, fun a s => ?_⟩
  · rw [exec_run]
    exact ⟨callTo_invalid (op := .run), callTo_overflow (op := .run)⟩
  · rw [exec_run16]
    exact ⟨callTo_invalid (op := .run16), callTo_overflow (op := .run16)⟩

theorem completesReturn_of_popAndResume {i : Instr} {s : State} (h0 : s.sp.val ≠ 0) (h : exec i s = popAndResume s) :
    CompletesReturn i s := by
  obtain ⟨hlt, e⟩ := popAndResume_of_nonempty h0
  exact ⟨hlt, _, h.trans e, BitVec.toNat_setWidth_of_le (by decide), Nat.succ_pred_eq_of_ne_zero h0, rfl, fun _ => rfl,
    rfl, ⟨rfl, rfl⟩, rfl, rfl, rfl, rfl⟩

/-- Settles O47: with a call outstanding both are the pop. -/
theorem returnsPopTheEntry : Obligations.ReturnsPopTheEntry := by
  intro s hpos
  have hret := exec_ret_nonempty hpos.ne'
  have hhalt := exec_halt_nonempty hpos.ne'
  exact ⟨completesReturn_of_popAndResume hpos.ne' hret, completesReturn_of_popAndResume hpos.ne' hhalt,
    hhalt.trans hret.symm⟩

/-- Settles O48: only RUNSTATE is written. -/
theorem haltOnEmptyStackEndsTheRun : Obligations.HaltOnEmptyStackEndsTheRun :=
  fun _ h0 => ⟨_, exec_halt_empty h0, rfl, rfl, fun _ => rfl, rfl, ⟨rfl, rfl⟩, ⟨rfl, rfl⟩, rfl, rfl, rfl⟩

/-- Settles O49: the empty stack is tested before the pop. -/
theorem retOnEmptyStackFaults : Obligations.RetOnEmptyStackFaults :=
  fun _ h0 => takesFault_of_eq_raise (exec_ret_empty h0)

/-- A return from the state that a call leaves pops the entry that the call pushed. -/
theorem popAndResume_of_pushed {s : State} (hroom : s.sp.val < 64) (entry : Addr16) (src : PcSource) :
    popAndResume ((s.pushed hroom entry).commitPc src) =
      .next ((s.commitPc (.pop entry)).withStk (s.stk.set s.sp.val entry hroom)) := by
  obtain ⟨_, e⟩ := popAndResume_of_nonempty (s := (s.pushed hroom entry).commitPc src) (Nat.succ_ne_zero _)
  rw [e]
  simp [State.withStk, State.pushed, State.commitPc]

theorem setWidth_returnAddress {n : Nat} (h : n < 65536) : (BitVec.ofNat 16 n).setWidth 32 = BitVec.ofNat 32 n := by
  rw [← BitVec.ofNat_toNat, BitVec.toNat_ofNat, Nat.mod_eq_of_lt h]

/-- Settles O50: the return pops the slot that the call filled, and that slot is dead again afterwards. -/
theorem callThenReturnComesBack : Obligations.CallThenReturnComesBack := by
  intro call back s hcall hback hm hroom
  have hrun : call.opcode = .run ∨ call.opcode = .run16 :=
    hcall.imp (fun ⟨_, e⟩ => congrArg Instr.opcode e) (fun ⟨_, e⟩ => congrArg Instr.opcode e)
  have hret : back.opcode = .ret ∨ back.opcode = .halt := hback.imp (congrArg Instr.opcode) (congrArg Instr.opcode)
  obtain ⟨target, hexec⟩ := exec_eq_callTo hrun s
  refine ⟨_, _, hexec.trans (callTo_completes hm hroom),
    (exec_return_nonempty hret (Nat.succ_ne_zero _)).trans (popAndResume_of_pushed hroom _ _), ?_⟩
  rw [State.commitPc, nextPc_pop, setWidth_returnAddress hm]
  exact agreeOnLive_withStk (fun k hk hlive => (Vector.getElem_set_ne hroom hk hlive.ne').symm)

/-! ## Input and output -/

/-- Settles O51: the raw byte. -/
theorem putcEmitsTheByte : Obligations.PutcEmitsTheByte :=
  fun a s => ⟨_, exec_putc a s, rfl, rfl, fun _ => rfl, rfl, rfl, ⟨rfl, rfl⟩, rfl, rfl, rfl, rfl⟩

/-- Settles O52: the laws of `decimalText`. -/
theorem putnEmitsDecimalText : Obligations.PutnEmitsDecimalText := by
  intro a s
  obtain ⟨hone, hthree⟩ := decimalText_length (s.mem.read (ea8 a).toNat)
  exact ⟨_, decimalText (s.mem.read (ea8 a).toNat), exec_putn a s, rfl, hone, hthree, decimalText_digits _,
    decimalText_value _, decimalText_no_leading_zero _, rfl, fun _ => rfl, rfl, rfl, ⟨rfl, rfl⟩, rfl, rfl, rfl, rfl⟩

/-- Settles O53: the byte that is ready, or 0 at the end. -/
theorem getcStoresTheNextByte : Obligations.GetcStoresTheNextByte := by
  refine fun a s => ⟨fun hp => ?_, fun hp hended => completesStoring_of_exec (exec_getc_end hp hended) rfl⟩
  exact ⟨_, exec_getc_byte hp, read_write_same _ _ _, rfl, rfl, fun _ hx => read_write_other _ _ hx, rfl, rfl,
    ⟨rfl, rfl⟩, rfl, rfl, rfl, rfl⟩

/-! ## 16-bit forms and unknown opcodes -/

/-- Settles O54: the validator stands before everything else in each form. -/
theorem rejectedAddressChangesNothing : Obligations.RejectedAddressChangesNothing := by
  intro limit a b v c s ha
  have hno : validAddr limit a = false := decide_eq_false (Nat.not_lt.mpr ha)
  have hfault : TakesFault (raiseFault .invalidAddress s) s .invalidAddress := takesFault_of_eq_raise rfl
  refine ⟨?_, ?_, ?_, ?_, ?_, ?_⟩
  · simpa [poke16Within, hno] using hfault
  · simpa [move16Within, hno] using hfault
  · cases hb : validAddr limit b <;> simpa [move16Within, hno, hb] using hfault
  · simpa [jmp16Within, hno] using hfault
  · simpa [jz16Within, hno] using hfault
  · simpa [run16Within, hno] using hfault

/-- Settles O55: none of the nine rows has a format. -/
theorem unassignedRowsRaiseUnknownOpcode : Obligations.UnassignedRowsRaiseUnknownOpcode := by
  intro s op
  have hfault {i : Instr} (h : i.opcode.format = .none) : TakesFault (exec i s) s .unknownOpcode :=
    takesFault_of_eq_raise (exec_of_noFormat h s)
  exact ⟨hfault rfl, hfault rfl, hfault rfl, hfault rfl, hfault rfl, hfault rfl, hfault rfl, hfault rfl, hfault rfl⟩

end Sys2Proof.Machine

/-! PROOF. 10_state.md, the host's transactions (R35, R37, R38, R41, R42). -/

namespace Sys2Proof.Machine

/-- Settles O56: a host reset is the reset state but for the bytes of IN. -/
theorem resetLeavesTheTableOfValues : Obligations.ResetLeavesTheTableOfValues := by
  rintro s t (rfl | rfl) <;> exact ⟨read_nil, rfl, rfl, rfl, rfl, rfl, rfl, rfl, rfl, rfl⟩

/-- Settles O57: the laws of `writeBytes` from address 0. -/
theorem loadPlacesTheImage : Obligations.LoadPlacesTheImage := by
  refine fun image s => ⟨fun hidle => ⟨_, if_pos hidle, rfl, fun x hx hm => ?_, fun x hx => ?_⟩,
    fun hidle => if_neg hidle⟩
  · have h := read_writeBytes_inside s.mem 0 image hx (by rwa [Nat.zero_add])
    rwa [Nat.zero_add] at h
  · exact read_writeBytes_above s.mem image (by rwa [Nat.zero_add])

/-- Settles O58: a 16-bit start address is a pc. -/
theorem runStartsAtTheGivenAddress : Obligations.RunStartsAtTheGivenAddress :=
  fun _ _ => ⟨fun hidle => ⟨_, if_pos hidle, BitVec.toNat_setWidth_of_le (by decide), rfl⟩,
    fun hidle => if_neg hidle⟩

section
variable {s : State}

theorem outcome_isSome_iff (s : State) : s.outcome.isSome = true ↔ s.halted := by
  cases hr : s.runState <;> simp [State.outcome, State.halted, hr]

theorem outcome_of_haltedNormal (hr : s.runState = .haltedNormal) :
    s.outcome = some ⟨s.runState, none, none, s.icount, s.of, s.sp⟩ := by
  simp [State.outcome, hr]

theorem outcome_of_haltedFault {k : FaultKind} (hr : s.runState = .haltedFault k) :
    s.outcome = some ⟨s.runState, some k, some s.fpc, s.icount, s.of, s.sp⟩ := by
  simp [State.outcome, hr]

end

/-- Settles O59: RUNSTATE decides the record's form, and the invariant ties FKIND and FPC to it. -/
theorem outcomeRecordReportsTheRun : Obligations.OutcomeRecordReportsTheRun := by
  refine fun s hinv => ⟨outcome_isSome_iff s, fun r h => ?_⟩
  obtain hr | ⟨k, hr⟩ := (outcome_isSome_iff s).mp (by rw [h]; rfl)
  · rw [outcome_of_haltedNormal hr] at h
    cases h
    have hfkind := fkind_of_safe hinv (fun k hk => by cases hr.symm.trans hk)
    exact ⟨rfl, hfkind.symm, rfl, rfl, rfl, fun k hk => absurd (hr.symm.trans hk) nofun, fun _ => rfl⟩
  · rw [outcome_of_haltedFault hr] at h
    cases h
    have hfkind := (hinv.faultRecord k).mp hr
    exact ⟨rfl, hfkind.symm, rfl, rfl, rfl, fun _ _ => congrArg some (hinv.faultPc k hr),
      fun hk => by cases hr.symm.trans hk⟩

end Sys2Proof.Machine
